-- ==== Sys2Proof/Word.lean ====
section
/-! DEFINITION. The data types of the engine: bytes, words, the 16-word State, the 64-byte keystream,
and a command packet (00_scope.md R11, R12; 30_encoding.md R80). -/

namespace Sys2Proof

/-- `u8`: a byte, 0..255 (R12). -/
abbrev Byte := BitVec 8

/-- `u32`: a word, 0..2^32-1, unsigned (R12, R103). -/
abbrev Word := BitVec 32

/-- The spec's type `State`: exactly 16 words (R12, R24). It is also the shape of OUT (R25) and of the
working array W (R32). -/
abbrev Words16 := Vector Word 16

/-- The contents of the register KS: exactly 64 bytes (R26). -/
abbrev KeyBytes := Vector Byte 64

/-- A command packet: one header word H and the payload words P (R80). The packet reaches the engine
framed: the payload is the list of words the host sent, of any length. -/
structure Packet where
  header  : Word
  payload : List Word
deriving DecidableEq, Repr

end Sys2Proof
end

