-- ==== Sys2Proof/Machine/Codes.lean ====
section
/-! DEFINITION. The status codes (60_exceptions.md R230, R231). -/

namespace Sys2Proof.Machine

/-- The eleven status codes of R230. No other code value is ever produced. -/
inductive Code where
  /-- The command completed. -/
  | ok
  /-- BUILD with KLEN ≠ 32. -/
  | invalidKeyLength
  /-- BUILD with KLEN = 32 and NLEN ≠ 12. -/
  | invalidNonceLength
  /-- XORS with KSLEN = 0. -/
  | invalidKeystreamLength
  /-- XORS with W = 0 and DLEN > KSLEN. -/
  | dataExceedsKeystream
  /-- OPC not in the opcode map. -/
  | illegalOpcode
  /-- A reserved header bit is 1. -/
  | reservedFieldNonzero
  /-- ROTL32 with N = 0. -/
  | invalidRotateAmount
  /-- The command needs STATE, OUT or KS, and it has no value. -/
  | operandNotWritten
  /-- The payload does not have exactly plen(H) words. -/
  | malformedPacket
  /-- XORS with KSLEN in 65..127. -/
  | fieldOutOfRange
deriving DecidableEq, Repr

/-- The 8-bit code value of R230's table. -/
def Code.toByte : Code → Byte
  | .ok => 0x00
  | .invalidKeyLength => 0x01
  | .invalidNonceLength => 0x02
  | .invalidKeystreamLength => 0x03
  | .dataExceedsKeystream => 0x04
  | .illegalOpcode => 0x80
  | .reservedFieldNonzero => 0x81
  | .invalidRotateAmount => 0x82
  | .operandNotWritten => 0x83
  | .malformedPacket => 0x84
  | .fieldOutOfRange => 0x85

/-- The input errors, codes 0x01..0x04: the source's own error taxonomy (R231). -/
def Code.isInputError (c : Code) : Bool := decide (0x01 ≤ c.toByte) && decide (c.toByte ≤ 0x04)

/-- The command faults, codes 0x80 and above (R231, R232). -/
def Code.isCommandFault (c : Code) : Bool := decide (0x80 ≤ c.toByte)

/-- Every code, for statements that quantify over the values ever produced (R230). -/
def Code.all : List Code :=
  [.ok, .invalidKeyLength, .invalidNonceLength, .invalidKeystreamLength, .dataExceedsKeystream,
   .illegalOpcode, .reservedFieldNonzero, .invalidRotateAmount, .operandNotWritten, .malformedPacket,
   .fieldOutOfRange]

end Sys2Proof.Machine
end

