-- ==== Sys2Proof/Machine/Operands.lean ====
section
/-! DEFINITION. Byte order and byte strings in packet words (20_memory.md R51 to R56). The engine's
operands are payload words and byte strings; this file is the one place where bytes become words. -/

namespace Sys2Proof.Machine

/-- Four bytes as a word, the first the least significant: the body of `le_word` (R52). -/
def leWord4 (b0 b1 b2 b3 : Byte) : Word := b3 ++ b2 ++ b1 ++ b0

/-- `le_word(b, i)`: word i of a byte sequence, little-endian (R52). A byte past the end reads as the
zero padding of R54. -/
def leWord (b : List Byte) (i : Nat) : Word :=
  leWord4 (b.getD (4 * i) 0) (b.getD (4 * i + 1) 0) (b.getD (4 * i + 2) 0) (b.getD (4 * i + 3) 0)

/-- Byte k (0..3) of a word, byte 0 the least significant (R53). -/
def byteOf (x : Word) (k : Nat) : Byte := x.extractLsb' (8 * k) 8

/-- `le_bytes(x)`: a word as four bytes, least significant first (R53). -/
def leBytes (x : Word) : List Byte := [byteOf x 0, byteOf x 1, byteOf x 2, byteOf x 3]

/-- `ceil(n/4)`: the number of words that hold n bytes (R12, R54). -/
def wordCount (n : Nat) : Nat := (n + 3) / 4

/-- `pack(b)`: a byte string as words, the last one padded with zero bytes (R54). -/
def pack : List Byte → List Word
  | [] => []
  | [a] => [leWord4 a 0 0 0]
  | [a, b] => [leWord4 a b 0 0]
  | [a, b, c] => [leWord4 a b c 0]
  | a :: b :: c :: d :: rest => leWord4 a b c d :: pack rest

/-- `unpack(ws, n)`: the first n bytes of the words' bytes; what follows them is padding (R54). -/
def unpack (ws : List Word) (n : Nat) : List Byte := (ws.flatMap leBytes).take n

/-- Sixteen words starting at payload word 0 (LDSTATE's s0..s15, R147). A word past the end reads as 0;
the packet checks of R86 let no such payload through. -/
def words16 (p : List Word) : Words16 := Vector.ofFn fun i => p.getD i.val 0

/-- The 64 bytes of 16 words: byte 4i+k is byte k of word i (R56, R190). -/
def bytes64 (b : Words16) : KeyBytes :=
  Vector.ofFn fun j => byteOf (b[j.val / 4]'(by have := j.isLt; omega)) (j.val % 4)

end Sys2Proof.Machine
end

