-- ==== Sys2Proof/Syntax.lean ====
section
/-! DEFINITION. The command set: one constructor per row of spec/opcode_table.json (30_encoding.md R87). -/

namespace Sys2Proof

/-- A command with the operands its packet carries, as the assembler line of R90 writes them. Byte
strings are byte lists: their padding carries no meaning (20_memory.md R54), and their lengths are the
length fields of the header (R83). Operand values the command itself refuses are commands too (a rotate
amount of 0, a key of the wrong length, KSLEN of 0 or above 64), since their meaning is a status code. -/
inductive Instr where
  /-- ADD32 a, b (R102). -/
  | add32 (a b : Word)
  /-- XOR32 a, b (R106). -/
  | xor32 (a b : Word)
  /-- ROTL32 a, #n: n is the 5-bit field N (R110). -/
  | rotl32 (n : BitVec 5) (a : Word)
  /-- QR a, b, c, d (R124). -/
  | qr (a b c d : Word)
  /-- BUILD key, ctr, nonce: KLEN and NLEN are the byte counts of the strings (R144). -/
  | build (counter : Word) (key nonce : List Byte)
  /-- LDSTATE s0..s15 (R147). -/
  | ldstate (s : Words16)
  /-- RDSTATE (R149). -/
  | rdstate
  /-- BLOCK, and with t the traced BLOCK.T (R176). -/
  | block (t : Bool)
  /-- RDOUT (R178). -/
  | rdout
  /-- SERIAL (R192). -/
  | serial
  /-- LDKS of 64 bytes (R194). -/
  | ldks (ks : KeyBytes)
  /-- RDKS (R196). -/
  | rdks
  /-- XORS #kslen, data, and with w the wrapping XORS.W; DLEN is the byte count of the data (R200). -/
  | xors (kslen : BitVec 7) (w : Bool) (data : List Byte)
  /-- RDSTATUS (R220). -/
  | rdstatus
deriving DecidableEq, Repr

end Sys2Proof
end

