-- ==== Sys2Proof/WellFormed.lean ====
section
/-! DEFINITION. Which commands can be encoded: the byte strings fit the header fields that count them
(30_encoding.md R83, R90). -/

namespace Sys2Proof

/-- A command whose byte strings fit their length fields: key and nonce at most 255 bytes (KLEN and NLEN
are 8 bits), data at most 65535 bytes (DLEN is 16 bits). These are the strings R90's assembler does not
refuse. Every other operand fits by its type. -/
def Instr.wellFormed : Instr → Bool
  | .build _ key nonce => decide (key.length ≤ 255) && decide (nonce.length ≤ 255)
  | .xors _ _ data => decide (data.length ≤ 65535)
  | .add32 _ _ => true
  | .xor32 _ _ => true
  | .rotl32 _ _ => true
  | .qr _ _ _ _ => true
  | .ldstate _ => true
  | .rdstate => true
  | .block _ => true
  | .rdout => true
  | .serial => true
  | .ldks _ => true
  | .rdks => true
  | .rdstatus => true

end Sys2Proof
end

