-- ==== Sys2Proof/Decode.lean ====
section
/-! DEFINITION. Decoding a command packet, total on any header and any payload, and the encoder
(30_encoding.md R80 to R91). A packet the decoder refuses is refused with the status code of R86. -/

namespace Sys2Proof

open Machine

/-- The fourteen commands of the opcode map (R87). -/
inductive Opcode where
  | add32 | xor32 | rotl32 | qr
  | build | ldstate | rdstate
  | block | rdout
  | serial | ldks | rdks | xors
  | rdstatus
deriving DecidableEq, Repr

/-- The five header formats (R82). -/
inductive Format where
  | f0 | fr | fb | ft | fx
deriving DecidableEq, Repr

/-- The opcode map (R87). -/
def Opcode.toByte : Opcode → Byte
  | .add32 => 0x01
  | .xor32 => 0x02
  | .rotl32 => 0x03
  | .qr => 0x04
  | .build => 0x10
  | .ldstate => 0x11
  | .rdstate => 0x12
  | .block => 0x20
  | .rdout => 0x21
  | .serial => 0x30
  | .ldks => 0x31
  | .rdks => 0x32
  | .xors => 0x33
  | .rdstatus => 0x3F

/-- The rows of the opcode map, in its order (R87). -/
def Opcode.all : List Opcode :=
  [.add32, .xor32, .rotl32, .qr, .build, .ldstate, .rdstate, .block, .rdout, .serial, .ldks, .rdks,
   .xors, .rdstatus]

/-- The command an OPC value selects; every value outside the map selects none (R87, R88). -/
def Opcode.ofByte (b : Byte) : Option Opcode := Opcode.all.find? fun op => op.toByte == b

/-- The header format of each command (R82, R87). -/
def Opcode.format : Opcode → Format
  | .add32 => .f0
  | .xor32 => .f0
  | .rotl32 => .fr
  | .qr => .f0
  | .build => .fb
  | .ldstate => .f0
  | .rdstate => .f0
  | .block => .ft
  | .rdout => .f0
  | .serial => .f0
  | .ldks => .f0
  | .rdks => .f0
  | .xors => .fx
  | .rdstatus => .f0

/-- `rsvd_mask`: the header bits a format does not assign, which must be 0 (R81, R86). -/
def Format.rsvdMask : Format → Word
  | .f0 => 0xFFFFFF00
  | .fr => 0xFFFFE000
  | .fb => 0xFF000000
  | .ft => 0xFFFFFE00
  | .fx => 0x00000000

/-- OPC = H[7:0] (R81). -/
def opcField (h : Word) : Byte := h.extractLsb' 0 8
/-- N = H[12:8] (R83). -/
def nField (h : Word) : BitVec 5 := h.extractLsb' 8 5
/-- KLEN = H[15:8] (R83). -/
def klenField (h : Word) : BitVec 8 := h.extractLsb' 8 8
/-- NLEN = H[23:16] (R83). -/
def nlenField (h : Word) : BitVec 8 := h.extractLsb' 16 8
/-- T = H[8] (R83). -/
def tField (h : Word) : Bool := h.getLsbD 8
/-- KSLEN = H[14:8] (R83). -/
def kslenField (h : Word) : BitVec 7 := h.extractLsb' 8 7
/-- W = H[15] (R83). -/
def wField (h : Word) : Bool := h.getLsbD 15
/-- DLEN = H[31:16] (R83). -/
def dlenField (h : Word) : BitVec 16 := h.extractLsb' 16 16

/-- plen of a legal command: how many payload words its header announces (R84). -/
def plenOf (op : Opcode) (h : Word) : Nat :=
  match op with
  | .add32 => 2
  | .xor32 => 2
  | .rotl32 => 1
  | .qr => 4
  | .build => 1 + wordCount (klenField h).toNat + wordCount (nlenField h).toNat
  | .ldstate => 16
  | .rdstate => 0
  | .block => 0
  | .rdout => 0
  | .serial => 0
  | .ldks => 16
  | .rdks => 0
  | .xors => wordCount (dlenField h).toNat
  | .rdstatus => 0

/-- `plen(H)`: undefined (none) for an opcode outside the map (R84). -/
def plen (h : Word) : Option Nat := (Opcode.ofByte (opcField h)).map fun op => plenOf op h

/-- The operands of a command, read from its header fields and its payload; `P[i]` is payload word i (R83,
R84 and each command's rule). Used only on a payload of `plenOf op h` words. -/
def readOperands (op : Opcode) (h : Word) (p : List Word) : Instr :=
  match op with
  | .add32 => .add32 (p.getD 0 0) (p.getD 1 0)
  | .xor32 => .xor32 (p.getD 0 0) (p.getD 1 0)
  | .rotl32 => .rotl32 (nField h) (p.getD 0 0)
  | .qr => .qr (p.getD 0 0) (p.getD 1 0) (p.getD 2 0) (p.getD 3 0)
  | .build =>
    .build (p.getD 0 0)
      (unpack ((p.drop 1).take (wordCount (klenField h).toNat)) (klenField h).toNat)
      (unpack (p.drop (1 + wordCount (klenField h).toNat)) (nlenField h).toNat)
  | .ldstate => .ldstate (words16 p)
  | .rdstate => .rdstate
  | .block => .block (tField h)
  | .rdout => .rdout
  | .serial => .serial
  | .ldks => .ldks (bytes64 (words16 p))
  | .rdks => .rdks
  | .xors => .xors (kslenField h) (wField h) (unpack p (dlenField h).toNat)
  | .rdstatus => .rdstatus

/-- The code of a packet whose payload has a wrong length: 0x84, but for the two header faults that outrank
it, 0x82 (ROTL32, N = 0) and 0x85 (XORS, KSLEN > 64) (R86, R236). On a payload of the right length the
command's own meaning raises these two (log 8). -/
def badPayloadCode (op : Opcode) (h : Word) : Code :=
  if op = .rotl32 ∧ nField h = 0 then .invalidRotateAmount
  else if op = .xors ∧ 64 < (kslenField h).toNat then .fieldOutOfRange
  else .malformedPacket

/-- Decode a packet: the command, or the status code that ends it, in the order of R86. -/
def decode (p : Packet) : Except Code Instr :=
  match Opcode.ofByte (opcField p.header) with
  | none => .error .illegalOpcode
  | some op =>
    if p.header &&& op.format.rsvdMask ≠ 0 then .error .reservedFieldNonzero
    else if p.payload.length ≠ plenOf op p.header then .error (badPayloadCode op p.header)
    else .ok (readOperands op p.header p.payload)

/-- The command's row of the opcode map (R87). -/
def Instr.opcode : Instr → Opcode
  | .add32 _ _ => .add32
  | .xor32 _ _ => .xor32
  | .rotl32 _ _ => .rotl32
  | .qr _ _ _ _ => .qr
  | .build _ _ _ => .build
  | .ldstate _ => .ldstate
  | .rdstate => .rdstate
  | .block _ => .block
  | .rdout => .rdout
  | .serial => .serial
  | .ldks _ => .ldks
  | .rdks => .rdks
  | .xors _ _ _ => .xors
  | .rdstatus => .rdstatus

/-- The header word of a command: its format's fields, most significant first, and its OPC (R82, R90). -/
def encodeHeader (i : Instr) : Word :=
  match i with
  | .add32 _ _ => 0#24 ++ Opcode.add32.toByte
  | .xor32 _ _ => 0#24 ++ Opcode.xor32.toByte
  | .rotl32 n _ => 0#19 ++ n ++ Opcode.rotl32.toByte
  | .qr _ _ _ _ => 0#24 ++ Opcode.qr.toByte
  | .build _ key nonce =>
    0#8 ++ BitVec.ofNat 8 nonce.length ++ BitVec.ofNat 8 key.length ++ Opcode.build.toByte
  | .ldstate _ => 0#24 ++ Opcode.ldstate.toByte
  | .rdstate => 0#24 ++ Opcode.rdstate.toByte
  | .block t => 0#23 ++ BitVec.ofBool t ++ Opcode.block.toByte
  | .rdout => 0#24 ++ Opcode.rdout.toByte
  | .serial => 0#24 ++ Opcode.serial.toByte
  | .ldks _ => 0#24 ++ Opcode.ldks.toByte
  | .rdks => 0#24 ++ Opcode.rdks.toByte
  | .xors kslen w data =>
    BitVec.ofNat 16 data.length ++ BitVec.ofBool w ++ kslen ++ Opcode.xors.toByte
  | .rdstatus => 0#24 ++ Opcode.rdstatus.toByte

/-- The payload words of a command (R84): words as they are, byte strings packed with zero padding (R54);
the nonce of BUILD starts on a fresh word (R144). -/
def encodePayload (i : Instr) : List Word :=
  match i with
  | .add32 a b => [a, b]
  | .xor32 a b => [a, b]
  | .rotl32 _ a => [a]
  | .qr a b c d => [a, b, c, d]
  | .build counter key nonce => counter :: (pack key ++ pack nonce)
  | .ldstate s => s.toList
  | .rdstate => []
  | .block _ => []
  | .rdout => []
  | .serial => []
  | .ldks ks => pack ks.toList
  | .rdks => []
  | .xors _ _ data => pack data
  | .rdstatus => []

/-- The packet of a command. -/
def encode (i : Instr) : Packet := { header := encodeHeader i, payload := encodePayload i }

/-- The packet whose bits are w, numbered as spec/opcode_table.json numbers them: bits 31..0 are the header
word, bits 63..32 payload word 0, and so on. Bits from nbits up are 0, and the payload has the plen(H)
words that the header announces (log 10). -/
def tablePacket (nbits w : Nat) : Packet :=
  let bits := w % 2 ^ nbits
  let h := BitVec.ofNat 32 bits
  { header := h
    payload := (List.range ((plen h).getD 0)).map fun j => BitVec.ofNat 32 (bits >>> (32 * (j + 1))) }

/-- The command the decoder reads from a packet whose bits are w (log 10). -/
def decodeTableWord (nbits w : Nat) : Option Instr :=
  match decode (tablePacket nbits w) with
  | .ok i => some i
  | .error _ => none

end Sys2Proof
end

