-- ==== Sys2Proof/Machine/State.lean ====
section
/-! DEFINITION. The state of the machine (10_state.md R20 to R35): the engine's record, the host's side of
the command port, and the reasons a step can stop. -/

namespace Sys2Proof.Machine

/-- The engine state of R21: nothing else persists from one command to the next. `none` in a data register
is the spec's own "no value": the register has not been written since reset (R21, R35, R240). -/
structure Engine where
  /-- STATE: 16 words, written by BUILD and LDSTATE, read by BLOCK and RDSTATE (R24). -/
  state       : Option Words16
  /-- OUT: the output block of the last successful BLOCK (R25). -/
  out         : Option Words16
  /-- KS: 64 keystream bytes, written by SERIAL and LDKS, read by XORS and RDKS (R26). -/
  ks          : Option KeyBytes
  /-- LAST_CODE: the status code of the last command (R27). -/
  lastCode    : Byte
  /-- LAST_OPC: header bits [7:0] of the last command, as received, legal or not (R27). -/
  lastOpc     : Byte
  /-- STICKY_ERR: 1 once any command has ended with an input error (R27, R28). -/
  stickyErr   : Bool
  /-- STICKY_FAULT: 1 once any command has ended with a command fault (R27, R28). -/
  stickyFault : Bool
deriving DecidableEq, Repr

/-- A response packet: the status word S and the result words (R80, R85). -/
structure Response where
  status : Word
  result : List Word
deriving DecidableEq, Repr

/-- What the host's side of the port can present to the engine, one at a time. -/
inductive HostInput where
  /-- A command packet of the host whose command stream this engine serves (R20, R80). -/
  | packet (p : Packet)
  /-- The reset input, taken between two commands (R260). -/
  | reset
  /-- The reset input arriving while the command p is running: no defined result (R260). -/
  | resetDuring (p : Packet)
  /-- A packet of a second host, interleaved on this engine: no defined result (R66). -/
  | secondHost (p : Packet)
deriving DecidableEq, Repr

/-- The whole state: the engine and the two directions of its host port. The two lists are the model's own
(logs 1 and 3): what the host will send, and what the engine has answered. -/
structure State where
  /-- The engine's record (R21). -/
  engine    : Engine
  /-- The host's inputs not yet taken, the next one first (R20, R63; DESIGN CHOICE, log 1, safe). -/
  pending   : List HostInput
  /-- The responses sent so far, the oldest first (R80, R277; DESIGN CHOICE, log 3, safe). -/
  responses : List Response
deriving DecidableEq, Repr

/-- What stops the machine with a fault: nothing, so the type has no constructor. Every error of the spec
is a status code after which the engine takes the next command (R231, R239): a next state. Safe (log 12). -/
inductive Fault where
deriving DecidableEq, Repr

/-- Why the model refuses to go on. -/
inductive Refusal where
  /-- Raised by an arm of `exec` for a command that has no meaning yet; no arm raises it. Safe. -/
  | notModelled (mnemonic : String)
  /-- Raised by `step` on a reset that arrives while a command is running: "The spec defines no result for a
  reset that arrives while a command is running on a physical engine" (R260, 93 row 10). Safe (log 5). -/
  | resetDuringCommand
  /-- Raised by `step` on a packet of a second host: "A model refuses such a run: the spec defines no result
  for it" (R66, 93 row 11). Safe (log 6). -/
  | interleavedHosts
deriving DecidableEq, Repr

/-- The engine after reset (R35, R260). -/
def Engine.reset : Engine where
  state := none
  out := none
  ks := none
  lastCode := 0x00
  lastOpc := 0x00
  stickyErr := false
  stickyFault := false

/-- The machine right after reset: the engine of R35, no input presented and no response sent. -/
def State.reset : State where
  engine := Engine.reset
  pending := []
  responses := []

end Sys2Proof.Machine
end

