-- ==== Sys2Proof/Machine/Flags.lean ====
section
/-! DEFINITION. The STATUS register, the engine's only flags (10_state.md R27 to R29), how a command updates
it (60_exceptions.md R232), and the status word of a response (30_encoding.md R85). -/

namespace Sys2Proof.Machine

/-- STATUS as a 32-bit word: a view of the engine's record (R27). The fields stand most significant first:
11 reserved zeros, KS_V, OUT_V, STATE_V, STICKY_FAULT, STICKY_ERR, LAST_OPC, LAST_CODE. -/
def Engine.status (e : Engine) : Word :=
  0#11 ++ BitVec.ofBool e.ks.isSome ++ BitVec.ofBool e.out.isSome ++ BitVec.ofBool e.state.isSome
    ++ BitVec.ofBool e.stickyFault ++ BitVec.ofBool e.stickyErr ++ e.lastOpc ++ e.lastCode

/-- The STATUS part of `finish` (R232): LAST_CODE and LAST_OPC take the command's values, and a sticky bit is
set by a code of its class and never cleared (R28). -/
def Engine.record (e : Engine) (opc : Byte) (c : Code) : Engine :=
  { e with
    lastCode := c.toByte
    lastOpc := opc
    stickyErr := e.stickyErr || c.isInputError
    stickyFault := e.stickyFault || c.isCommandFault }

/-- The status word S of a response: RLEN, the OPC echo, CODE (R85). RLEN is taken to 16 bits (R232). -/
def statusWord (rlen : Nat) (opc : Byte) (c : Code) : Word := BitVec.ofNat 16 rlen ++ opc ++ c.toByte

/-- The response of a command: on any code but 0x00 it has no result words (R84, R232). -/
def respond (opc : Byte) (c : Code) (r : List Word) : Response :=
  match c with
  | .ok => { status := statusWord r.length opc .ok, result := r }
  | c => { status := statusWord 0 opc c, result := [] }

end Sys2Proof.Machine
end

