-- ==== Sys2Proof/Machine/Ops.lean ====
section
/-! DEFINITION. The named operations on the state: writing a data register, ending a command (60_exceptions.md
R232, R233), reading a data register that may have no value (R240), the reset input (70 R260).

Ending a command with an error is what this engine has in place of taking an exception, and it is one
operation, `State.raise`. There is no trap and no return from one (R239, R241). -/

namespace Sys2Proof.Machine

/-- Write STATE, whole (R24, R58). -/
def Engine.writeState (e : Engine) (s : Words16) : Engine := { e with state := some s }

/-- Write OUT, whole (R25, R58). -/
def Engine.writeOut (e : Engine) (b : Words16) : Engine := { e with out := some b }

/-- Write KS, whole (R26, R58). -/
def Engine.writeKs (e : Engine) (k : KeyBytes) : Engine := { e with ks := some k }

/-- `finish(E, H, code, R)` (R232): STATUS is updated over the engine state e the command leaves, and one
response is sent. The result words r were computed before this update. -/
def State.finish (s : State) (e : Engine) (opc : Byte) (c : Code) (r : List Word) : State :=
  { s with
    engine := e.record opc c
    responses := s.responses ++ [respond opc c r] }

/-- A command completes: code 0x00, with the engine state e it leaves and its result words r (R86, R232). -/
def State.complete (s : State) (e : Engine) (op : Opcode) (r : List Word) : State :=
  s.finish e op.toByte .ok r

/-- `raise <Code>` (R233): the command stops at once, the engine state is as it was when the command began,
and the command finishes with the code and no result words. -/
def State.raise (s : State) (opc : Byte) (c : Code) : State := s.finish s.engine opc c []

/-- Read a data register that the command needs: a register with no value ends the command with code 0x83,
never with a number (R240). -/
def withOperand {α : Type} (reg : Option α) (op : Opcode) (s : State)
    (body : α → Host.Outcome State Fault Refusal) : Host.Outcome State Fault Refusal :=
  match reg with
  | none => .next (s.raise op.toByte .operandNotWritten)
  | some v => body v

/-- The engine takes the host's next input off the stream. -/
def State.takeInput (s : State) (rest : List HostInput) : State := { s with pending := rest }

/-- The reset input (R260): every piece of the engine's state takes its value of R35. The host's stream and
the responses already sent are not the engine's (log 4). -/
def State.resetEngine (s : State) : State := { s with engine := Engine.reset }

end Sys2Proof.Machine
end

