-- ==== Sys2Proof/Machine/WordArith.lean ====
section
/-! DEFINITION. Word arithmetic and its commands ADD32, XOR32, ROTL32 (40_word_arith.md R100 to R110). -/

namespace Sys2Proof.Machine

/-- `add32(a, b) = (a + b) mod 2^32` (R100). -/
def add32 (a b : Word) : Word := a + b

/-- `xor32(a, b)`: bit-wise exclusive OR (R104). -/
def xor32 (a b : Word) : Word := a ^^^ b

/-- `rotl32(a, n)`: left rotation, by the formula of R108, which the spec gives for 0 < n < 32. -/
def rotl32 (a : Word) (n : Nat) : Word := (a <<< n) ||| (a >>> (32 - n))

/-- ADD32 (R102). -/
def execAdd32 (a b : Word) (s : State) : Host.Outcome State Fault Refusal :=
  .next (s.complete s.engine .add32 [add32 a b])

/-- XOR32 (R106). -/
def execXor32 (a b : Word) (s : State) : Host.Outcome State Fault Refusal :=
  .next (s.complete s.engine .xor32 [xor32 a b])

/-- ROTL32 (R110): a rotate amount of 0 ends the command with code 0x82. -/
def execRotl32 (n : BitVec 5) (a : Word) (s : State) : Host.Outcome State Fault Refusal :=
  if n = 0 then .next (s.raise Opcode.rotl32.toByte .invalidRotateAmount)
  else .next (s.complete s.engine .rotl32 [rotl32 a n.toNat])

end Sys2Proof.Machine
end

