-- ==== Sys2Proof/Machine/QuarterRound.lean ====
section
/-! DEFINITION. The quarter-round mixer and its command QR (41_quarter_round.md R120 to R124). -/

namespace Sys2Proof.Machine

/-- The four words a quarter-round takes and gives (R120). -/
structure Quad where
  a : Word
  b : Word
  c : Word
  d : Word
deriving DecidableEq, Repr

/-- Four word indices of a 16-word array, in the order (i, j, k, l) (R122, R161). -/
structure QuadIdx where
  i : Fin 16
  j : Fin 16
  k : Fin 16
  l : Fin 16
deriving DecidableEq, Repr

/-- One line of R120: `x = add32(x, y); z = rotl32(xor32(z, x), n)`, giving the new (x, z). -/
def qrLine (x y z : Word) (n : Nat) : Word × Word :=
  let x' := add32 x y
  (x', rotl32 (xor32 z x') n)

/-- `qr(a, b, c, d)`: four lines in strict sequence, with the rotate constants 16, 12, 8, 7 (R120, R34). -/
def qr (q : Quad) : Quad :=
  let (a, d) := qrLine q.a q.b q.d 16
  let (c, b) := qrLine q.c d q.b 12
  let (a, d) := qrLine a b d 8
  let (c, b) := qrLine c d b 7
  { a := a, b := b, c := c, d := d }

/-- The four words of an array at an index group. -/
def readQuad (x : Words16) (g : QuadIdx) : Quad := { a := x[g.i], b := x[g.j], c := x[g.k], d := x[g.l] }

/-- Write four words back to the positions of an index group. -/
def writeQuad (x : Words16) (g : QuadIdx) (q : Quad) : Words16 :=
  (((x.set g.i q.a).set g.j q.b).set g.k q.c).set g.l q.d

/-- `QUARTERROUND(X, i, j, k, l)`: the in-place form (R122). -/
def quarterRound (x : Words16) (g : QuadIdx) : Words16 := writeQuad x g (qr (readQuad x g))

/-- QR (R124): one quarter-round on four words of the payload. -/
def execQr (a b c d : Word) (s : State) : Host.Outcome State Fault Refusal :=
  let r := qr { a := a, b := b, c := c, d := d }
  .next (s.complete s.engine .qr [r.a, r.b, r.c, r.d])

end Sys2Proof.Machine
end

