-- ==== Sys2Proof/Machine/BlockTransform.lean ====
section
/-! DEFINITION. The block transform, its trace, and the commands BLOCK and RDOUT (43_block_transform.md R160 to
R178). -/

namespace Sys2Proof.Machine

/-- The four index groups of the column phase, in order (R161). -/
def columnGroups : List QuadIdx := [⟨0, 4, 8, 12⟩, ⟨1, 5, 9, 13⟩, ⟨2, 6, 10, 14⟩, ⟨3, 7, 11, 15⟩]

/-- The four index groups of the diagonal phase, in order (R161). -/
def diagonalGroups : List QuadIdx := [⟨0, 5, 10, 15⟩, ⟨1, 6, 11, 12⟩, ⟨2, 7, 8, 13⟩, ⟨3, 4, 9, 14⟩]

/-- The eight groups of a double-round, the column phase first (R162). -/
def doubleRoundGroups : List QuadIdx := columnGroups ++ diagonalGroups

/-- Quarter-rounds over a list of groups, one after another, each seeing what the earlier ones wrote (R162). -/
def phase (gs : List QuadIdx) (w : Words16) : Words16 := gs.foldl quarterRound w

/-- A double-round: the column phase, then the diagonal phase (R162). -/
def doubleRound (w : Words16) : Words16 := phase doubleRoundGroups w

/-- n double-rounds, one after another. -/
def doubleRounds (n : Nat) (w : Words16) : Words16 :=
  match n with
  | 0 => w
  | n + 1 => doubleRounds n (doubleRound w)

/-- Exactly 10 double-rounds per block (R34, R163). -/
def roundCount : Nat := 10

/-- Finalization: word-wise addition of the original input state (R165). -/
def finalize (w s : Words16) : Words16 := Vector.zipWith add32 w s

/-- `block(S)`: copy, 10 double-rounds, finalization (R160, R166). -/
def block (s : Words16) : Words16 := finalize (doubleRounds roundCount s) s

/-- The kind of a trace record (R170). -/
inductive StepKind where
  | state | quarter | round | final
deriving DecidableEq, Repr

/-- A trace record: kind, touched indices, and the snapshots it carries (R170). -/
structure TraceRecord where
  kind    : StepKind
  indices : Option QuadIdx
  before  : Option Words16
  after   : Option Words16
deriving DecidableEq, Repr

/-- The records of the quarter-rounds over a list of groups: a `quarter` record before each and a `state`
record after it (R170, R171). -/
def tracePhase (gs : List QuadIdx) (w : Words16) : List TraceRecord :=
  match gs with
  | [] => []
  | g :: gs =>
    let w' := quarterRound w g
    { kind := .quarter, indices := some g, before := some w, after := none }
      :: { kind := .state, indices := some g, before := none, after := some w' }
      :: tracePhase gs w'

/-- The records of n double-rounds: both phases, then a `round` record with the post-phase snapshot (R171). -/
def traceRounds (n : Nat) (w : Words16) : List TraceRecord :=
  match n with
  | 0 => []
  | n + 1 =>
    let w' := doubleRound w
    tracePhase doubleRoundGroups w
      ++ { kind := .round, indices := none, before := none, after := some w' } :: traceRounds n w'

/-- `block_traced(S)`: the output and the trace, from the initial `state` record to the `final` one (R171). -/
def blockTraced (s : Words16) : Words16 × List TraceRecord :=
  let out := finalize (doubleRounds roundCount s) s
  (out,
    { kind := .state, indices := none, before := some s, after := none }
      :: (traceRounds roundCount s
        ++ [{ kind := .final, indices := none, before := some s, after := some out }]))

/-- KIND: 0 state, 1 quarter, 2 round, 3 final (R174). -/
def StepKind.toBits : StepKind → BitVec 3
  | .state => 0
  | .quarter => 1
  | .round => 2
  | .final => 3

/-- A word index as a 4-bit field (R174). -/
def idxBits (i : Fin 16) : BitVec 4 := BitVec.ofNat 4 i.val

/-- The indices fields IDX3, IDX2, IDX1, IDX0, most significant first; all 0 where the record has none (R174). -/
def indexBits (g : Option QuadIdx) : BitVec 16 :=
  match g with
  | none => 0
  | some g => idxBits g.l ++ idxBits g.k ++ idxBits g.j ++ idxBits g.i

/-- The record-header word (R174). -/
def TraceRecord.headerWord (r : TraceRecord) : Word :=
  0#8 ++ indexBits r.indices ++ 0#2 ++ BitVec.ofBool r.after.isSome ++ BitVec.ofBool r.before.isSome
    ++ BitVec.ofBool r.indices.isSome ++ r.kind.toBits

/-- A snapshot's 16 words if the record carries it, else none (R174). -/
def snapshotWords (x : Option Words16) : List Word :=
  match x with
  | none => []
  | some w => w.toList

/-- A record as result words: its header word, then `before`, then `after` (R174). -/
def TraceRecord.encode (r : TraceRecord) : List Word :=
  r.headerWord :: (snapshotWords r.before ++ snapshotWords r.after)

/-- The trace as result words, in record order (R174, R175). -/
def encodeTrace (tr : List TraceRecord) : List Word := tr.flatMap TraceRecord.encode

/-- BLOCK (R176): OUT takes the block of STATE, which is not written; with T the encoded trace follows the
16 output words in the response. -/
def execBlock (t : Bool) (s : State) : Host.Outcome State Fault Refusal :=
  withOperand s.engine.state .block s fun b =>
    if t then
      let r := blockTraced b
      .next (s.complete (s.engine.writeOut r.1) .block (r.1.toList ++ encodeTrace r.2))
    else
      .next (s.complete (s.engine.writeOut (block b)) .block (block b).toList)

/-- RDOUT (R178). -/
def execRdout (s : State) : Host.Outcome State Fault Refusal :=
  withOperand s.engine.out .rdout s fun b => .next (s.complete s.engine .rdout b.toList)

end Sys2Proof.Machine
end

