-- ==== Sys2Proof/Machine/Codec.lean ====
section
/-! DEFINITION. The keystream / XOR codec and its commands SERIAL, LDKS, RDKS, XORS (44_keystream_codec.md R190
to R203). The codec never advances the block counter (R202). -/

namespace Sys2Proof.Machine

/-- `serialize_le(B)`: 64 bytes, each word least significant byte first (R190). -/
def serializeLe (b : Words16) : KeyBytes := bytes64 b

/-- Byte i of the output is `data[i] XOR ks[i mod len(ks)]` (R198). -/
def xorBytes (data ks : List Byte) : List Byte :=
  data.mapIdx fun i d => d ^^^ ks.getD (i % ks.length) 0

/-- `xor_stream(data, ks)`: the keystream must not be empty (R198). -/
def xorStream (data ks : List Byte) : Except Code (List Byte) :=
  if ks.length = 0 then .error .invalidKeystreamLength else .ok (xorBytes data ks)

/-- SERIAL (R192): KS takes the serialized OUT, and the result is its 16 words. -/
def execSerial (s : State) : Host.Outcome State Fault Refusal :=
  withOperand s.engine.out .serial s fun b =>
    let k := serializeLe b
    .next (s.complete (s.engine.writeKs k) .serial (pack k.toList))

/-- LDKS (R194): any 64 bytes. -/
def execLdks (k : KeyBytes) (s : State) : Host.Outcome State Fault Refusal :=
  .next (s.complete (s.engine.writeKs k) .ldks [])

/-- RDKS (R196). -/
def execRdks (s : State) : Host.Outcome State Fault Refusal :=
  withOperand s.engine.ks .rdks s fun k => .next (s.complete s.engine .rdks (pack k.toList))

/-- XORS (R200): its checks in order are KSLEN > 64 (0x85, of R86), KSLEN = 0 (0x03), KS without a value
(0x83), and W = 0 with more data than keystream (0x04). No register is written. -/
def execXors (kslen : BitVec 7) (w : Bool) (data : List Byte) (s : State) :
    Host.Outcome State Fault Refusal :=
  if 64 < kslen.toNat then .next (s.raise Opcode.xors.toByte .fieldOutOfRange)
  else if kslen = 0 then .next (s.raise Opcode.xors.toByte .invalidKeystreamLength)
  else
    withOperand s.engine.ks .xors s fun k =>
      if w = false ∧ kslen.toNat < data.length then
        .next (s.raise Opcode.xors.toByte .dataExceedsKeystream)
      else
        match xorStream data (k.toList.take kslen.toNat) with
        | .error c => .next (s.raise Opcode.xors.toByte c)
        | .ok r => .next (s.complete s.engine .xors (pack r))

end Sys2Proof.Machine
end

