-- ==== Sys2Proof/Machine/Control.lean ====
section
/-! DEFINITION. The status read RDSTATUS (45_control.md R220). The engine has no other control command (R222,
R224). -/

namespace Sys2Proof.Machine

/-- RDSTATUS (R220): the result is STATUS before this command's own update. -/
def execRdstatus (s : State) : Host.Outcome State Fault Refusal :=
  .next (s.complete s.engine .rdstatus [s.engine.status])

end Sys2Proof.Machine
end

