-- ==== Sys2Proof/Machine/StateBuilder.lean ====
section
/-! DEFINITION. The state initializer and its commands BUILD, LDSTATE, RDSTATE (42_state_builder.md R140 to
R149). -/

namespace Sys2Proof.Machine

/-- The constant "expand 32-byte k" as four little-endian words (R34, R140). -/
def constantWord (i : Nat) : Word :=
  match i with
  | 0 => 0x61707865
  | 1 => 0x3320646e
  | 2 => 0x79622d32
  | _ => 0x6b206574

/-- Word i of the State layout: constant, key, counter, nonce (R140). -/
def layoutWord (key : List Byte) (counter : Word) (nonce : List Byte) (i : Nat) : Word :=
  if i < 4 then constantWord i
  else if i < 12 then leWord key (i - 4)
  else if i = 12 then counter
  else leWord nonce (i - 13)

/-- `build_state(key, counter, nonce)`: the key length is checked before the nonce length (R141). -/
def buildState (key : List Byte) (counter : Word) (nonce : List Byte) : Except Code Words16 :=
  if key.length ≠ 32 then .error .invalidKeyLength
  else if nonce.length ≠ 12 then .error .invalidNonceLength
  else .ok (Vector.ofFn fun i => layoutWord key counter nonce i.val)

/-- BUILD (R144): STATE takes the built State, and the result is its 16 words; on a wrong length STATE keeps
what it had. OUT and KS are not touched (R272). -/
def execBuild (counter : Word) (key nonce : List Byte) (s : State) : Host.Outcome State Fault Refusal :=
  match buildState key counter nonce with
  | .error c => .next (s.raise Opcode.build.toByte c)
  | .ok b => .next (s.complete (s.engine.writeState b) .build b.toList)

/-- LDSTATE (R147): any 16 words, with no check of layout. -/
def execLdstate (b : Words16) (s : State) : Host.Outcome State Fault Refusal :=
  .next (s.complete (s.engine.writeState b) .ldstate [])

/-- RDSTATE (R149). -/
def execRdstate (s : State) : Host.Outcome State Fault Refusal :=
  withOperand s.engine.state .rdstate s fun b => .next (s.complete s.engine .rdstate b.toList)

end Sys2Proof.Machine
end

