-- ==== Sys2Proof/Machine/Dispatch.lean ====
section
/-! DEFINITION. perform_opc of 30_encoding.md R86: one arm per command of R87, each a call of its meaning. -/

namespace Sys2Proof.Machine

/-- Perform a decoded command on a state whose engine is the one the command begins with (R86, R87). -/
def exec (i : Instr) (s : State) : Host.Outcome State Fault Refusal :=
  match i with
  | .add32 a b => Sys2Proof.Machine.execAdd32 a b s
  | .xor32 a b => Sys2Proof.Machine.execXor32 a b s
  | .rotl32 n a => Sys2Proof.Machine.execRotl32 n a s
  | .qr a b c d => Sys2Proof.Machine.execQr a b c d s
  | .build counter key nonce => Sys2Proof.Machine.execBuild counter key nonce s
  | .ldstate b => Sys2Proof.Machine.execLdstate b s
  | .rdstate => Sys2Proof.Machine.execRdstate s
  | .block t => Sys2Proof.Machine.execBlock t s
  | .rdout => Sys2Proof.Machine.execRdout s
  | .serial => Sys2Proof.Machine.execSerial s
  | .ldks k => Sys2Proof.Machine.execLdks k s
  | .rdks => Sys2Proof.Machine.execRdks s
  | .xors kslen w data => Sys2Proof.Machine.execXors kslen w data s
  | .rdstatus => Sys2Proof.Machine.execRdstatus s

end Sys2Proof.Machine
end

