-- ==== Sys2Proof/Machine/Port.lean ====
section
/-! DEFINITION. The command port: what the engine does with one input of its host (30_encoding.md R86,
70_reset_and_hazards.md R260, 20_memory.md R66). -/

namespace Sys2Proof.Machine

/-- A command packet (R86): a packet the decoder refuses ends with its code, the OPC echoed as received; any
other is performed. -/
def runPacket (p : Packet) (s : State) : Host.Outcome State Fault Refusal :=
  match decode p with
  | .error c => .next (s.raise (opcField p.header) c)
  | .ok i => exec i s

/-- One input of the host, already taken off the stream of s. -/
def acceptInput (x : HostInput) (s : State) : Host.Outcome State Fault Refusal :=
  match x with
  | .packet p => runPacket p s
  | .reset => .next s.resetEngine
  | .resetDuring _ => .refused .resetDuringCommand
  | .secondHost _ => .refused .interleavedHosts

/-- The engine's step: take the oldest input and act on it; with no input the engine is idle and keeps all
its state (R247, log 2). -/
def stepPort (s : State) : Host.Outcome State Fault Refusal :=
  match s.pending with
  | [] => .next s
  | x :: rest => acceptInput x (s.takeInput rest)

/-- s with the packet of the table word put first in the host's stream (log 10). -/
def State.presentWord (s : State) (nbits w : Nat) : State :=
  { s with pending := .packet (tablePacket nbits w) :: s.pending }

end Sys2Proof.Machine
end

