-- ==== Sys2Proof/Machine/Step.lean ====
section
/-! DEFINITION. One step of the machine, and how the host's table word becomes its next command. -/

namespace Sys2Proof.Machine

/-- One step: the engine acts on its host's next input (20_memory.md R63, 30_encoding.md R86). -/
def step (s : State) : Host.Outcome State Fault Refusal := stepPort s

/-- s with the packet of the table word w as its next input, so that the next step decodes and runs it. The
engine fetches nothing (R22): a command comes from the host, and this stands for the host sending it (log
10). -/
def State.withFetchWord (s : State) (nbits w : Nat) : State := s.presentWord nbits w

end Sys2Proof.Machine
end

