-- ==== Sys2Proof/Machine/Assembler.lean ====
section
/-! DEFINITION. The assembler of 30_encoding.md R90 and R91, and the pseudo-instructions of R92. They belong to
the host's side, not to the machine (92_eei_decisions.md D33): the assembler makes packets of command
lines, and a pseudo-instruction is a list of commands that the host sends. -/

namespace Sys2Proof.Machine

/-- Assemble a command: the assembler refuses a string longer than its field can count (R90). A key or a
nonce of a wrong length still assembles; the engine rejects it. -/
def assemble (i : Instr) : Option Packet := if i.wellFormed then some (encode i) else none

/-! ## The text of a command line (R90)

The input is the line's characters. Spaces and tabs may stand around operands and a comment runs from a
semicolon to the end; hex digits may be of either case (DESIGN CHOICE, log 13). -/

/-- A blank character. -/
def isBlank (c : Char) : Bool := c == ' ' || c == '\t'

/-- A text without the blanks at its two ends. -/
def trimBlanks (t : List Char) : List Char :=
  (((t.dropWhile isBlank).reverse).dropWhile isBlank).reverse

/-- Split at commas. -/
def splitCommas : List Char → List (List Char)
  | [] => [[]]
  | c :: t =>
    match splitCommas t with
    | [] => [[c]]
    | x :: xs => if c = ',' then [] :: x :: xs else (c :: x) :: xs

/-- The text after a given beginning, if it begins so. -/
def afterStart : List Char → List Char → Option (List Char)
  | [], t => some t
  | _ :: _, [] => none
  | c :: cs, d :: t => if c = d then afterStart cs t else none

/-- The value of a hex digit. -/
def hexDigit (c : Char) : Option Nat :=
  if '0' ≤ c ∧ c ≤ '9' then some (c.toNat - 48)
  else if 'a' ≤ c ∧ c ≤ 'f' then some (c.toNat - 87)
  else if 'A' ≤ c ∧ c ≤ 'F' then some (c.toNat - 55)
  else none

/-- The digits of a number in a base, most significant first, onto the value read so far. -/
def digitsValue (base : Nat) (acc : Nat) : List Char → Option Nat
  | [] => some acc
  | c :: t =>
    match hexDigit c with
    | none => none
    | some d => if d < base then digitsValue base (base * acc + d) t else none

/-- A number: 0x-prefixed hex or decimal, with at least one digit (R90). -/
def numberText (t : List Char) : Option Nat :=
  match afterStart ['0', 'x'] t with
  | some ds => if ds = [] then none else digitsValue 16 0 ds
  | none => if t = [] then none else digitsValue 10 0 t

/-- A 32-bit word operand (R90). -/
def wordText (t : List Char) : Option Word :=
  match numberText t with
  | some v => if v < 2 ^ 32 then some (BitVec.ofNat 32 v) else none
  | none => none

/-- A counter operand `#<n>` in a range (R90). -/
def hashText (lo hi : Nat) (t : List Char) : Option Nat :=
  match afterStart ['#'] t with
  | some ds =>
    match numberText ds with
    | some v => if lo ≤ v ∧ v ≤ hi then some v else none
    | none => none
  | none => none

/-- The bytes of the hex digits up to a closing quote, which ends the text: each pair is one byte, the first
pair first (R90). -/
def hexBytes : List Char → Option (List Byte)
  | ['"'] => some []
  | a :: b :: t =>
    match hexDigit a, hexDigit b, hexBytes t with
    | some x, some y, some bs => some (BitVec.ofNat 8 (16 * x + y) :: bs)
    | _, _, _ => none
  | _ => none

/-- A byte string `h"<hex>"` after a given beginning, as in `key=h"<hex>"` (R90). -/
def bytesText (start t : List Char) : Option (List Byte) :=
  match afterStart (start ++ ['h', '"']) t with
  | some ds => hexBytes ds
  | none => none

/-- Every text of a list as a word. -/
def wordsText : List (List Char) → Option (List Word)
  | [] => some []
  | t :: ts =>
    match wordText t, wordsText ts with
    | some x, some xs => some (x :: xs)
    | _, _ => none

/-- Sixteen words as LDSTATE's operand. -/
def ldstateText (ops : List (List Char)) : Option Instr :=
  match wordsText ops with
  | some ws => if ws.length = 16 then some (.ldstate (words16 ws)) else none
  | none => none

/-- `ROTL32 <a>, #<n>`, n = 1..31 (R90). -/
def rotl32Text (a n : List Char) : Option Instr :=
  match wordText a, hashText 1 31 n with
  | some a, some n => some (.rotl32 (BitVec.ofNat 5 n) a)
  | _, _ => none

/-- `BUILD key=h"<hex>", ctr=<u32>, nonce=h"<hex>"` (R90). -/
def buildText (key ctr nonce : List Char) : Option Instr :=
  match bytesText ['k', 'e', 'y', '='] key, afterStart ['c', 't', 'r', '='] ctr,
    bytesText ['n', 'o', 'n', 'c', 'e', '='] nonce with
  | some k, some c, some n => (wordText c).map fun c => .build c k n
  | _, _, _ => none

/-- `LDKS h"<128 hex digits>"`: exactly 64 bytes (R90). -/
def ldksText (t : List Char) : Option Instr :=
  match bytesText [] t with
  | some bs => if bs.length = 64 then some (.ldks (bytes64 (words16 (pack bs)))) else none
  | none => none

/-- `XORS #<kslen>, data=h"<hex>"` and `XORS.W` (R90). -/
def xorsText (w : Bool) (kslen data : List Char) : Option Instr :=
  match hashText 0 127 kslen, bytesText ['d', 'a', 't', 'a', '='] data with
  | some k, some bs => some (.xors (BitVec.ofNat 7 k) w bs)
  | _, _ => none

/-- A command from its mnemonic and its operand texts (R90). -/
def commandText (mnemonic : List Char) (ops : List (List Char)) : Option Instr :=
  match mnemonic, ops with
  | ['A', 'D', 'D', '3', '2'], [a, b] =>
    match wordText a, wordText b with
    | some a, some b => some (.add32 a b)
    | _, _ => none
  | ['X', 'O', 'R', '3', '2'], [a, b] =>
    match wordText a, wordText b with
    | some a, some b => some (.xor32 a b)
    | _, _ => none
  | ['R', 'O', 'T', 'L', '3', '2'], [a, n] => rotl32Text a n
  | ['Q', 'R'], [a, b, c, d] =>
    match wordText a, wordText b, wordText c, wordText d with
    | some a, some b, some c, some d => some (.qr a b c d)
    | _, _, _, _ => none
  | ['B', 'U', 'I', 'L', 'D'], [k, c, n] => buildText k c n
  | ['L', 'D', 'S', 'T', 'A', 'T', 'E'], ops => ldstateText ops
  | ['R', 'D', 'S', 'T', 'A', 'T', 'E'], [] => some .rdstate
  | ['B', 'L', 'O', 'C', 'K'], [] => some (.block false)
  | ['B', 'L', 'O', 'C', 'K', '.', 'T'], [] => some (.block true)
  | ['R', 'D', 'O', 'U', 'T'], [] => some .rdout
  | ['S', 'E', 'R', 'I', 'A', 'L'], [] => some .serial
  | ['L', 'D', 'K', 'S'], [b] => ldksText b
  | ['R', 'D', 'K', 'S'], [] => some .rdks
  | ['X', 'O', 'R', 'S'], [k, d] => xorsText false k d
  | ['X', 'O', 'R', 'S', '.', 'W'], [k, d] => xorsText true k d
  | ['R', 'D', 'S', 'T', 'A', 'T', 'U', 'S'], [] => some .rdstatus
  | _, _ => none

/-- A line's mnemonic and its operands between commas (R90). -/
def lineParts (line : List Char) : List Char × List (List Char) :=
  let t := trimBlanks (line.takeWhile fun c => c != ';')
  let rest := trimBlanks (t.dropWhile fun c => !isBlank c)
  (t.takeWhile fun c => !isBlank c, if rest = [] then [] else (splitCommas rest).map trimBlanks)

/-- The command of a line (R90). -/
def lineCommand (line : List Char) : Option Instr := commandText (lineParts line).1 (lineParts line).2

/-- The packet of a line of assembler text (R90). -/
def assembleLine (line : List Char) : Option Packet := (lineCommand line).bind assemble

/-! ## Pseudo-instructions (R92) -/

/-- The pseudo-instructions of R92. -/
inductive Pseudo where
  | keystream (key : List Byte) (counter : Word) (nonce : List Byte)
  | encrypt (key : List Byte) (counter : Word) (nonce data : List Byte)
  | decrypt (key : List Byte) (counter : Word) (nonce data : List Byte)
  | encryptN (key : List Byte) (counter : Word) (nonce data : List Byte)
deriving DecidableEq, Repr

/-- BUILD, BLOCK, SERIAL (R92). -/
def keystreamCommands (key : List Byte) (counter : Word) (nonce : List Byte) : List Instr :=
  [.build counter key nonce, .block false, .serial]

/-- A KEYSTREAM and then XORS #64 with the data (R92). -/
def encryptCommands (key : List Byte) (counter : Word) (nonce data : List Byte) : List Instr :=
  keystreamCommands key counter nonce ++ [.xors 64 false data]

/-- Bytes 64i up to min(64i+64, L) of the data (R92). -/
def chunk (data : List Byte) (i : Nat) : List Byte := (data.drop (64 * i)).take 64

/-- `ceil(L/64)`: the number of chunks of a data string (R92). -/
def chunkCount (data : List Byte) : Nat := (data.length + 63) / 64

/-- One KEYSTREAM and XORS per 64-byte chunk, the counter increased by one for each (R92, R270). -/
def encryptNCommands (key : List Byte) (counter : Word) (nonce data : List Byte) : List Instr :=
  (List.range (chunkCount data)).flatMap fun i =>
    encryptCommands key (counter + BitVec.ofNat 32 i) nonce (chunk data i)

/-- The commands of a pseudo-instruction, or none where it may not be written: ENCRYPT and DECRYPT take at most
64 bytes, and ENCRYPTN is refused when its last counter would pass 0xFFFFFFFF (R92). -/
def Pseudo.expand (x : Pseudo) : Option (List Instr) :=
  match x with
  | .keystream key counter nonce => some (keystreamCommands key counter nonce)
  | .encrypt key counter nonce data =>
    if data.length ≤ 64 then some (encryptCommands key counter nonce data) else none
  | .decrypt key counter nonce data =>
    if data.length ≤ 64 then some (encryptCommands key counter nonce data) else none
  | .encryptN key counter nonce data =>
    if counter.toNat + chunkCount data ≤ 2 ^ 32 then some (encryptNCommands key counter nonce data)
    else none

/-- The key, counter and nonce texts of a pseudo-instruction, written as BUILD's operands (R92, log 13). -/
def keyOperands (key ctr nonce : List Char) : Option (List Byte × Word × List Byte) :=
  match buildText key ctr nonce with
  | some (.build c k n) => some (k, c, n)
  | _ => none

/-- The same with the data text `data=h"<hex>"` of ENCRYPT, DECRYPT and ENCRYPTN (R92, log 13). -/
def dataOperands (key ctr nonce data : List Char) : Option (List Byte × Word × List Byte × List Byte) :=
  match keyOperands key ctr nonce, bytesText ['d', 'a', 't', 'a', '='] data with
  | some (k, c, n), some d => some (k, c, n, d)
  | _, _ => none

/-- A pseudo-instruction from its mnemonic and its operand texts (R92). -/
def pseudoText (mnemonic : List Char) (ops : List (List Char)) : Option Pseudo :=
  match mnemonic, ops with
  | ['K', 'E', 'Y', 'S', 'T', 'R', 'E', 'A', 'M'], [k, c, n] =>
    (keyOperands k c n).map fun x => .keystream x.1 x.2.1 x.2.2
  | ['E', 'N', 'C', 'R', 'Y', 'P', 'T'], [k, c, n, d] =>
    (dataOperands k c n d).map fun x => .encrypt x.1 x.2.1 x.2.2.1 x.2.2.2
  | ['D', 'E', 'C', 'R', 'Y', 'P', 'T'], [k, c, n, d] =>
    (dataOperands k c n d).map fun x => .decrypt x.1 x.2.1 x.2.2.1 x.2.2.2
  | ['E', 'N', 'C', 'R', 'Y', 'P', 'T', 'N'], [k, c, n, d] =>
    (dataOperands k c n d).map fun x => .encryptN x.1 x.2.1 x.2.2.1 x.2.2.2
  | _, _ => none

/-- The packets of a list of commands, if every one of them assembles (R90). -/
def assembleAll : List Instr → Option (List Packet)
  | [] => some []
  | i :: is =>
    match assemble i, assembleAll is with
    | some p, some ps => some (p :: ps)
    | _, _ => none

/-- The packets of a pseudo-instruction's line, in the order sent (R92). -/
def assemblePseudoLine (line : List Char) : Option (List Packet) :=
  ((pseudoText (lineParts line).1 (lineParts line).2).bind Pseudo.expand).bind assembleAll

end Sys2Proof.Machine
end

