-- ==== Sys2Proof/Safety.lean ====
section
/-! DEFINITION. What claims about the machine are stated in: how a command ends, written out from the tables of
the spec and not from the machine's own operations; the code a packet must end with; the invariant of
the state; a run; and what a host must respect for its results to be correct ciphertext. -/

namespace Sys2Proof

open Machine

/-! ## How a command ends (30_encoding.md R85, 60_exceptions.md R232, R234) -/

/-- What the machine does with one packet of the host: a step from s with the packet next in the stream. -/
def onPacket (s : State) (h : Word) (p : List Word) : Host.Outcome State Fault Refusal :=
  step { s with pending := .packet { header := h, payload := p } :: s.pending }

/-- The outcome is s with the engine e and with one more response; nothing else differs from s. -/
def Answers (o : Host.Outcome State Fault Refusal) (s : State) (e : Engine) (status : Word)
    (result : List Word) : Prop :=
  o = .next { s with engine := e, responses := s.responses ++ [{ status := status, result := result }] }

/-- The command ended with code 0x00: the engine is e but for LAST_CODE and LAST_OPC, and the response is
{RLEN, OPC, 0x00} and the result words. -/
def Completes (o : Host.Outcome State Fault Refusal) (s : State) (e : Engine) (opc : Byte)
    (result : List Word) : Prop :=
  Answers o s { e with lastCode := 0x00, lastOpc := opc }
    (BitVec.ofNat 16 result.length ++ opc ++ 0x00#8) result

/-- The command ended with an input error, a code 0x01..0x04: no data register is written, STICKY_ERR is set,
and the response is {0, OPC, code} with no result words. -/
def EndsInError (o : Host.Outcome State Fault Refusal) (s : State) (opc code : Byte) : Prop :=
  Answers o s { s.engine with lastCode := code, lastOpc := opc, stickyErr := true } (0#16 ++ opc ++ code) []

/-- The command ended with a command fault, a code 0x80..0x85: as an input error, with STICKY_FAULT. -/
def EndsInFault (o : Host.Outcome State Fault Refusal) (s : State) (opc code : Byte) : Prop :=
  Answers o s { s.engine with lastCode := code, lastOpc := opc, stickyFault := true } (0#16 ++ opc ++ code) []

/-! ## The code of a packet, by R86 and R236 -/

/-- The packet checks of R86 in their order, on the header's bits: the code of the first that fails. -/
def packetCheck (p : Packet) : Option Byte :=
  let opc := opcField p.header
  if opc ∉ [0x01#8, 0x02, 0x03, 0x04, 0x10, 0x11, 0x12, 0x20, 0x21, 0x30, 0x31, 0x32, 0x33, 0x3F] then some 0x80
  else if (opc = 0x03 ∧ p.header &&& 0xFFFFE000 ≠ 0) ∨ (opc = 0x10 ∧ p.header &&& 0xFF000000 ≠ 0)
      ∨ (opc = 0x20 ∧ p.header &&& 0xFFFFFE00 ≠ 0)
      ∨ (opc ∉ [0x03#8, 0x10, 0x20, 0x33] ∧ p.header &&& 0xFFFFFF00 ≠ 0) then some 0x81
  else if opc = 0x03 ∧ nField p.header = 0 then some 0x82
  else if opc = 0x33 ∧ 64 < (kslenField p.header).toNat then some 0x85
  else if plen p.header ≠ some p.payload.length then some 0x84
  else none

/-- The command's own checks, R236 item 5, on the header's bits and the engine's data registers. -/
def commandCheck (e : Engine) (p : Packet) : Option Byte :=
  let opc := opcField p.header
  if opc = 0x10 then
    if klenField p.header ≠ 32 then some 0x01 else if nlenField p.header ≠ 12 then some 0x02 else none
  else if opc = 0x33 then
    if kslenField p.header = 0 then some 0x03
    else if e.ks = none then some 0x83
    else if wField p.header = false ∧ (kslenField p.header).toNat < (dlenField p.header).toNat then some 0x04
    else none
  else if (opc = 0x12 ∨ opc = 0x20) ∧ e.state = none then some 0x83
  else if (opc = 0x21 ∨ opc = 0x30) ∧ e.out = none then some 0x83
  else if opc = 0x32 ∧ e.ks = none then some 0x83
  else none

/-- The status code of a packet: the first that applies in the order of R236, and 0x00 when none does. -/
def packetCode (e : Engine) (p : Packet) : Byte :=
  match packetCheck p with
  | some c => c
  | none => (commandCheck e p).getD 0x00

/-! ## The invariant of the state -/

/-- The code field of a response's status word (R85). -/
def responseCode (r : Response) : Byte := r.status.extractLsb' 0 8

/-- A response is well formed: RLEN counts its result words, its code is one of R230, and on any code but 0x00
it has no result words (R84, R85, R230). -/
def responseWf (r : Response) : Prop :=
  (r.status.extractLsb' 16 16).toNat = r.result.length
    ∧ responseCode r ∈ Code.all.map Code.toByte
    ∧ (responseCode r ≠ 0x00 → r.result = [])

/-- The engine's record is consistent: LAST_CODE is a code of R230, the sticky bit of its class is set (R27,
R232), and OUT has a value only if STATE has one, since only BLOCK writes OUT and it needs STATE (R23,
R176). -/
def engineWf (e : Engine) : Prop :=
  e.lastCode ∈ Code.all.map Code.toByte
    ∧ ((0x01 ≤ e.lastCode ∧ e.lastCode ≤ 0x04) → e.stickyErr = true)
    ∧ (0x80 ≤ e.lastCode → e.stickyFault = true)
    ∧ (e.out.isSome = true → e.state.isSome = true)

/-- The invariant of the machine. -/
def stateWf (s : State) : Prop := engineWf s.engine ∧ ∀ r ∈ s.responses, responseWf r

/-! ## Runs (70_reset_and_hazards.md R277) -/

/-- The start of a run: reset, and then the packets of one host in order (R63, R277). -/
def startRun (cs : List Packet) : State := { State.reset with pending := cs.map .packet }

/-- The observation of a run that has ended: the list of responses and the final engine state (R277). -/
def observation (s : State) : List Response × Engine := (s.responses, s.engine)

/-- No error has been recorded since reset: a premise a claim may take (D31). -/
def noErrorRecorded (e : Engine) : Prop := e.stickyErr = false ∧ e.stickyFault = false

/-! ## The host's duties for correct encryption (R270 to R272) -/

/-- KS and OUT are those of the State in STATE: no register is stale (R272). -/
def keystreamFresh (e : Engine) : Prop :=
  ∃ b, e.state = some b ∧ e.out = some (block b) ∧ e.ks = some (serializeLe (block b))

/-- The command wraps no keystream: an XORS has no more data than keystream bytes (R271). -/
def withinKeystream : Instr → Bool
  | .xors kslen _ data => decide (data.length ≤ kslen.toNat)
  | .add32 _ _ => true
  | .xor32 _ _ => true
  | .rotl32 _ _ => true
  | .qr _ _ _ _ => true
  | .build _ _ _ => true
  | .ldstate _ => true
  | .rdstate => true
  | .block _ => true
  | .rdout => true
  | .serial => true
  | .ldks _ => true
  | .rdks => true
  | .rdstatus => true

/-- The commands are repeats of BUILD, BLOCK, SERIAL, XORS: each XORS has a BUILD of its own (R270). Only the order
is asked for; KSLEN, W, T and the chunks are left open (DESIGN CHOICE, log 14). -/
def oneBlockPerXors : List Instr → Bool
  | [] => true
  | .build _ _ _ :: .block _ :: .serial :: .xors _ _ _ :: rest => oneBlockPerXors rest
  | _ => false

/-- Key, counter and nonce of every BUILD, in order: what a list of commands encrypts under. The operands count even
where the engine will reject that BUILD for its key or nonce length, although STATE then stays as it was (DESIGN
CHOICE, log 14). -/
def builds (is : List Instr) : List (List Byte × Word × List Byte) :=
  is.filterMap fun i =>
    match i with
    | .build counter key nonce => some (key, counter, nonce)
    | _ => none

/-- Under one key and nonce the counters of the BUILDs rise, so none is repeated and none wraps from 0xFFFFFFFF to 0
(R271). R271 asks for these two only; a rising order is more than it asks (DESIGN CHOICE, log 14). -/
def countersRise (is : List Instr) : Prop :=
  (builds is).Pairwise fun x y => x.1 = y.1 → x.2.2 = y.2.2 → x.2.1.toNat < y.2.1.toNat

/-- The host's duties of R270 and R271 on a list of commands that encrypts. The spec gives the duties in words about
encryptions; that this predicate reads them off the commands' operands, without running the engine, is the
model's choice (DESIGN CHOICE, log 14). -/
def hostDuty (is : List Instr) : Prop :=
  oneBlockPerXors is = true ∧ (∀ i ∈ is, withinKeystream i = true) ∧ countersRise is

end Sys2Proof
end

