-- ==== Sys2Proof/Certificates/Slice0/Obligations.lean ====
section
/-! DEFINITION. The statements for the provers, each formalising rules of spec/ as its docstring says. How a
command ends is written with `Completes`, `EndsInError`, `EndsInFault` of Sys2Proof/Safety.lean; each of the
three gives the WHOLE next state, so each such statement is the command's result and its frame at once. -/

open Sys2Proof Sys2Proof.Machine

/-! ## Word arithmetic (40_word_arith.md) -/

/-- R100, R101: the sum is taken modulo 2^32 and is commutative, associative, with identity 0, and wraps. -/
def Obligations.Add32IsTheSumModulo : Prop :=
  ∀ a b c : Word,
    (add32 a b).toNat = (a.toNat + b.toNat) % 2 ^ 32
      ∧ add32 a b = add32 b a
      ∧ add32 (add32 a b) c = add32 a (add32 b c)
      ∧ add32 a 0 = a
      ∧ add32 0xFFFFFFFF 1 = 0

/-- R104: bit i of the result is `a[i] XOR b[i]`, and the laws of that rule. -/
def Obligations.Xor32IsBitwise : Prop :=
  ∀ a b c : Word,
    (∀ i, i < 32 → (xor32 a b).getLsbD i = (a.getLsbD i ^^ b.getLsbD i))
      ∧ xor32 a a = 0
      ∧ xor32 a 0 = a
      ∧ xor32 a b = xor32 b a
      ∧ xor32 (xor32 a b) c = xor32 a (xor32 b c)

/-- R108: for 0 < n < 32, the formula of the rule on numbers, and bit i of the result is bit (i - n) mod 32. -/
def Obligations.Rotl32MovesBits : Prop :=
  ∀ (a : Word) (n : Nat), 0 < n → n < 32 →
    (rotl32 a n).toNat = (a.toNat * 2 ^ n) % 2 ^ 32 ||| a.toNat / 2 ^ (32 - n)
      ∧ ∀ i, i < 32 → (rotl32 a n).getLsbD i = a.getLsbD ((i + (32 - n)) % 32)

/-- R109: the laws of rotl32 for 0 < n < 32: its inverse, the number of 1 bits, the fixed points. -/
def Obligations.Rotl32Laws : Prop :=
  rotl32 0x80000000 1 = 1
    ∧ ∀ (a : Word) (n : Nat), 0 < n → n < 32 →
        rotl32 (rotl32 a n) (32 - n) = a
          ∧ (List.range 32).countP (rotl32 a n).getLsbD = (List.range 32).countP a.getLsbD
          ∧ rotl32 0 n = 0
          ∧ rotl32 0xFFFFFFFF n = 0xFFFFFFFF

/-! ## The quarter-round (41_quarter_round.md) -/

/-- R120: the lines of the quarter-round in strict sequence. -/
def Obligations.QrFollowsItsLines : Prop :=
  ∀ a b c d : Word,
    let a1 := add32 a b
    let d1 := rotl32 (xor32 d a1) 16
    let c1 := add32 c d1
    let b1 := rotl32 (xor32 b c1) 12
    let a2 := add32 a1 b1
    let d2 := rotl32 (xor32 d1 a2) 8
    let c2 := add32 c1 d2
    let b2 := rotl32 (xor32 b1 c2) 7
    qr { a := a, b := b, c := c, d := d } = { a := a2, b := b2, c := c2, d := d2 }

/-- R121: qr fixes the zero input and is a bijection on four words. -/
def Obligations.QrIsABijection : Prop :=
  qr { a := 0, b := 0, c := 0, d := 0 } = { a := 0, b := 0, c := 0, d := 0 }
    ∧ Function.Bijective qr

/-- R122: for four distinct indices the in-place form writes the four results back to the same positions and
changes no other word; and every group the transform uses has four distinct indices. -/
def Obligations.QuarterRoundInPlace : Prop :=
  (∀ (x : Words16) (g : QuadIdx), [g.i, g.j, g.k, g.l].Nodup →
      let r := qr { a := x[g.i], b := x[g.j], c := x[g.k], d := x[g.l] }
      (quarterRound x g)[g.i] = r.a ∧ (quarterRound x g)[g.j] = r.b
        ∧ (quarterRound x g)[g.k] = r.c ∧ (quarterRound x g)[g.l] = r.d
        ∧ ∀ m : Fin 16, m ∉ [g.i, g.j, g.k, g.l] → (quarterRound x g)[m] = x[m])
    ∧ ∀ g ∈ columnGroups ++ diagonalGroups, [g.i, g.j, g.k, g.l].Nodup

/-! ## The block transform (43_block_transform.md) -/

/-- R161: the index groups in their fixed order; each phase touches every index exactly once. -/
def Obligations.IndexGroupsAreTheTable : Prop :=
  columnGroups.map (fun g => [g.i, g.j, g.k, g.l])
      = [[0, 4, 8, 12], [1, 5, 9, 13], [2, 6, 10, 14], [3, 7, 11, 15]]
    ∧ diagonalGroups.map (fun g => [g.i, g.j, g.k, g.l])
      = [[0, 5, 10, 15], [1, 6, 11, 12], [2, 7, 8, 13], [3, 4, 9, 14]]
    ∧ ∀ m : Fin 16,
        (columnGroups.flatMap fun g => [g.i, g.j, g.k, g.l]).count m = 1
          ∧ (diagonalGroups.flatMap fun g => [g.i, g.j, g.k, g.l]).count m = 1

/-- R162, its last paragraph: the groups of one phase touch disjoint words, so their order within the phase
does not change W. -/
def Obligations.PhaseOrderDoesNotMatter : Prop :=
  ∀ (gs : List QuadIdx) (w : Words16),
    (gs.Perm columnGroups → phase gs w = phase columnGroups w)
      ∧ (gs.Perm diagonalGroups → phase gs w = phase diagonalGroups w)

/-- R121, R162: a double-round is a bijection on 16 words, the permutation that the finalization of R165 makes
irreversible. -/
def Obligations.DoubleRoundIsABijection : Prop := Function.Bijective doubleRound

/-- R162, R163, R165, R166: the block function is 10 double-rounds on a copy of S, each of them the column groups
and then the diagonal groups one after another, and then the word-wise addition of the untouched S. -/
def Obligations.BlockIsTenDoubleRoundsPlusInput : Prop :=
  (∀ w : Words16,
      doubleRound w
        = [(⟨3, 4, 9, 14⟩ : QuadIdx), ⟨2, 7, 8, 13⟩, ⟨1, 6, 11, 12⟩, ⟨0, 5, 10, 15⟩, ⟨3, 7, 11, 15⟩,
            ⟨2, 6, 10, 14⟩, ⟨1, 5, 9, 13⟩, ⟨0, 4, 8, 12⟩].foldr (fun g x => quarterRound x g) w)
    ∧ ∀ (s : Words16) (i : Nat) (h : i < 16), (block s)[i] = add32 (doubleRound^[10] s)[i] s[i]

/-- R171, R172: the trace of a block has 172 records; each stands at its number and holds its kind, its indices
and its snapshots, where W before group g of phase p of double-round r is what the groups before it made of
S. The out of the traced function is the untraced block. -/
def Obligations.TraceRecordsInOrder : Prop :=
  ∀ s : Words16,
    let tr := (blockTraced s).2
    tr.length = 172
      ∧ (blockTraced s).1 = block s
      ∧ tr[0]? = some { kind := .state, indices := none, before := some s, after := none }
      ∧ tr[171]? = some { kind := .final, indices := none, before := some s, after := some (block s) }
      ∧ (∀ r, r < 10 → tr[17 + 17 * r]?
          = some { kind := .round, indices := none, before := none, after := some (doubleRound^[r + 1] s) })
      ∧ ∀ r p g, r < 10 → p < 2 → g < 4 → ∃ q : QuadIdx,
          (if p = 0 then columnGroups else diagonalGroups)[g]? = some q
            ∧ let w := phase ((columnGroups ++ diagonalGroups).take (4 * p + g)) (doubleRound^[r] s)
              tr[1 + 17 * r + 8 * p + 2 * g]?
                  = some { kind := .quarter, indices := some q, before := some w, after := none }
                ∧ tr[2 + 17 * r + 8 * p + 2 * g]?
                  = some { kind := .state, indices := some q, before := none,
                           after := some (quarterRound w q) }

/-- R173: the final record's snapshots are the input and the output, record 170 holds the W to which finalization
adds S, a quarter-round's snapshots differ only at the touched indices, and the `after` of a state record is
the `before` of the next quarter record, a round record between them carrying that same W. -/
def Obligations.TraceSnapshotsAgree : Prop :=
  ∀ s : Words16,
    let tr := (blockTraced s).2
    (tr[171]?.bind fun r => r.after) = some (blockTraced s).1
      ∧ (tr[171]?.bind fun r => r.before) = some s
      ∧ (tr[0]?.bind fun r => r.before) = some s
      ∧ (∃ w, (tr[170]?.bind fun r => r.after) = some w
          ∧ ∀ (i : Nat) (h : i < 16), (blockTraced s).1[i] = add32 w[i] s[i])
      ∧ ∀ r m, r < 10 → m < 8 → ∃ (q : QuadIdx) (x y : Words16),
          tr[1 + 17 * r + 2 * m]? = some { kind := .quarter, indices := some q, before := some x, after := none }
            ∧ tr[2 + 17 * r + 2 * m]?
              = some { kind := .state, indices := some q, before := none, after := some y }
            ∧ (∀ i : Fin 16, i ∉ [q.i, q.j, q.k, q.l] → x[i] = y[i])
            ∧ (m < 7 → (tr[3 + 17 * r + 2 * m]?.bind fun r => r.before) = some y)
            ∧ (m = 7 → (tr[17 + 17 * r]?.bind fun r => r.after) = some y)
            ∧ (m = 7 → r < 9 → (tr[18 + 17 * r]?.bind fun r => r.before) = some y)

/-- R174: the record-header words of the rule's table and the sizes of the records; a full trace is 2940 words,
record r's words starting at word 17r. -/
def Obligations.TraceEncodingIsTheTable : Prop :=
  (∀ (q : QuadIdx) (w w' : Words16),
      let idx := q.l.val * 2 ^ 20 + q.k.val * 2 ^ 16 + q.j.val * 2 ^ 12 + q.i.val * 2 ^ 8
      TraceRecord.encode { kind := .state, indices := none, before := some w, after := none }
          = 0x00000010 :: w.toList
        ∧ TraceRecord.encode { kind := .quarter, indices := some q, before := some w, after := none }
          = BitVec.ofNat 32 (idx + 0x19) :: w.toList
        ∧ TraceRecord.encode { kind := .state, indices := some q, before := none, after := some w }
          = BitVec.ofNat 32 (idx + 0x28) :: w.toList
        ∧ TraceRecord.encode { kind := .round, indices := none, before := none, after := some w }
          = 0x00000022 :: w.toList
        ∧ TraceRecord.encode { kind := .final, indices := none, before := some w, after := some w' }
          = 0x00000033 :: (w.toList ++ w'.toList))
    ∧ ∀ s : Words16,
        (encodeTrace (blockTraced s).2).length = 2940
          ∧ ∀ r rec, (blockTraced s).2[r]? = some rec →
              rec.encode.length = (if r = 171 then 33 else 17)
                ∧ ((encodeTrace (blockTraced s).2).drop (17 * r)).take rec.encode.length = rec.encode

/-! ## Byte order and byte strings (20_memory.md), the builder and the codec (42, 44) -/

/-- R52, R53: le_word and le_bytes by their formulas, and `le_word(le_bytes(x), 0) = x`. -/
def Obligations.LittleEndianWords : Prop :=
  (∀ (b : List Byte) (i : Nat) (h : 4 * i + 3 < b.length),
      (leWord b i).toNat = b[4 * i].toNat + 2 ^ 8 * b[4 * i + 1].toNat + 2 ^ 16 * b[4 * i + 2].toNat
        + 2 ^ 24 * b[4 * i + 3].toNat)
    ∧ ∀ x : Word,
        (leBytes x).map BitVec.toNat
            = [x.toNat % 256, x.toNat / 256 % 256, x.toNat / 65536 % 256, x.toNat / 16777216]
          ∧ leWord (leBytes x) 0 = x

/-- R54: a packed string has ceil(len/4) words, word j the little-endian word j of the string extended with zero
bytes; unpack reads byte i from word i/4; unpack undoes pack. -/
def Obligations.PackAndUnpack : Prop :=
  (∀ b : List Byte,
      (pack b).length = (b.length + 3) / 4
        ∧ (∀ j, j < (b.length + 3) / 4 → (pack b)[j]? = some (leWord (b ++ [0, 0, 0]) j))
        ∧ unpack (pack b) b.length = b)
    ∧ ∀ (ws : List Word) (n i : Nat), i < n → ∀ h : i / 4 < ws.length,
        (unpack ws n)[i]? = some (ws[i / 4].extractLsb' (8 * (i % 4)) 8)

/-- R141: build_state checks the key length, then the nonce length, and lays out constant, key, counter, nonce. -/
def Obligations.BuildStateLaysOut : Prop :=
  ∀ (key : List Byte) (counter : Word) (nonce : List Byte),
    (key.length ≠ 32 → buildState key counter nonce = .error .invalidKeyLength)
      ∧ (key.length = 32 → nonce.length ≠ 12 → buildState key counter nonce = .error .invalidNonceLength)
      ∧ (key.length = 32 → nonce.length = 12 → ∃ b : Words16,
          buildState key counter nonce = .ok b
            ∧ b.toList = [0x61707865, 0x3320646e, 0x79622d32, 0x6b206574]
                ++ (List.range 8).map (leWord key) ++ [counter] ++ (List.range 3).map (leWord nonce))

/-- R190, R191: byte 4i+k of the serialized block is bits 8k+7..8k of word i; packing it gives the block back, so
SERIAL and a RDKS after it both answer the words of OUT. -/
def Obligations.SerializeThenPack : Prop :=
  (∀ b : Words16,
      (∀ i k : Nat, ∀ _ : i < 16, ∀ _ : k < 4, (serializeLe b)[4 * i + k] = b[i].extractLsb' (8 * k) 8)
        ∧ (serializeLe b).toList = b.toList.flatMap leBytes
        ∧ pack (serializeLe b).toList = b.toList)
    ∧ ∀ (s : State) (b : Words16), s.engine.out = some b →
        ∃ t u, exec .serial s = .next t ∧ exec .rdks t = .next u
          ∧ t.responses = s.responses ++ [{ status := 0x00103000, result := b.toList }]
          ∧ u.responses = t.responses ++ [{ status := 0x00103200, result := b.toList }]

/-- R198, R199: with a non-empty keystream xor_stream keeps the length, byte i is `data[i] XOR ks[i mod len]`, and
it undoes itself; an empty keystream is InvalidKeystreamLength. -/
def Obligations.XorStreamIsAnInvolution : Prop :=
  (∀ data : List Byte, xorStream data [] = .error .invalidKeystreamLength)
    ∧ ∀ (data ks : List Byte) (hk : 0 < ks.length), ∃ r,
        xorStream data ks = .ok r
          ∧ r.length = data.length
          ∧ (∀ (i : Nat) (h : i < data.length),
              r[i]? = some (data[i] ^^^ ks[i % ks.length]'(Nat.mod_lt i hk)))
          ∧ xorStream r ks = .ok data

/-! ## Encoding (30_encoding.md) -/

/-- Every well-formed command, with every operand it can carry, is what its own packet decodes to (R82 to R84,
R86). -/
def Obligations.DecodeEncode : Prop := ∀ i : Instr, i.wellFormed = true → decode (encode i) = .ok i

/-- What decodes to a command is that command's packet: the header to the last bit, the payload to its length, and
all of the payload but for the padding bytes of XORS's data and of BUILD's key and nonce (R54, R82 to R84, R86). -/
def Obligations.EncodeDecode : Prop :=
  ∀ (p : Packet) (i : Instr), decode p = .ok i →
    i.wellFormed = true
      ∧ (encode i).header = p.header
      ∧ (encode i).payload.length = p.payload.length
      ∧ (i.opcode ≠ .build → i.opcode ≠ .xors → encode i = p)
      ∧ (i.opcode = .xors → ∀ j, j < (dlenField p.header).toNat →
          ((encode i).payload.getD (j / 4) 0).extractLsb' (8 * (j % 4)) 8
            = (p.payload.getD (j / 4) 0).extractLsb' (8 * (j % 4)) 8)
      ∧ (i.opcode = .build →
          (encode i).payload.getD 0 0 = p.payload.getD 0 0
            ∧ (∀ j, j < (klenField p.header).toNat →
                ((encode i).payload.getD (1 + j / 4) 0).extractLsb' (8 * (j % 4)) 8
                  = (p.payload.getD (1 + j / 4) 0).extractLsb' (8 * (j % 4)) 8)
            ∧ ∀ j, j < (nlenField p.header).toNat →
                let m := 1 + ((klenField p.header).toNat + 3) / 4 + j / 4
                ((encode i).payload.getD m 0).extractLsb' (8 * (j % 4)) 8
                  = (p.payload.getD m 0).extractLsb' (8 * (j % 4)) 8)

/-- R54: the padding bytes of a payload's last word may hold any value. Two XORS payloads, or two BUILD payloads
with the same counter, that agree on the bytes counted by the header decode to the same result. -/
def Obligations.PaddingIsIgnored : Prop :=
  (∀ (dlen : BitVec 16) (w : Bool) (kslen : BitVec 7) (p q : List Word),
      p.length = q.length →
      (∀ i, i < dlen.toNat → (p.getD (i / 4) 0).extractLsb' (8 * (i % 4)) 8
          = (q.getD (i / 4) 0).extractLsb' (8 * (i % 4)) 8) →
      decode { header := dlen ++ BitVec.ofBool w ++ kslen ++ 0x33#8, payload := p }
        = decode { header := dlen ++ BitVec.ofBool w ++ kslen ++ 0x33#8, payload := q })
    ∧ ∀ (nlen klen : BitVec 8) (p q : List Word),
      p.length = q.length →
      p.getD 0 0 = q.getD 0 0 →
      (∀ i, i < klen.toNat → (p.getD (1 + i / 4) 0).extractLsb' (8 * (i % 4)) 8
          = (q.getD (1 + i / 4) 0).extractLsb' (8 * (i % 4)) 8) →
      (∀ i, i < nlen.toNat →
        (p.getD (1 + (klen.toNat + 3) / 4 + i / 4) 0).extractLsb' (8 * (i % 4)) 8
          = (q.getD (1 + (klen.toNat + 3) / 4 + i / 4) 0).extractLsb' (8 * (i % 4)) 8) →
      decode { header := 0#8 ++ nlen ++ klen ++ 0x10#8, payload := p }
        = decode { header := 0#8 ++ nlen ++ klen ++ 0x10#8, payload := q }

/-- Words written out from R82, R84, R87 and 95_test_vectors.md decode to the commands they stand for. -/
def Obligations.DecodeSanity : Prop :=
  decode { header := 0x00000001, payload := [0xFFFFFFFF, 1] } = .ok (.add32 0xFFFFFFFF 1)
    ∧ decode { header := 0x00001F03, payload := [1] } = .ok (.rotl32 31 1)
    ∧ decode { header := 0x00000120, payload := [] } = .ok (.block true)
    ∧ decode { header := 0x00058133, payload := [0, 0xFFFFFF07] } = .ok (.xors 1 true [0, 0, 0, 0, 7])
    ∧ decode { header := 0x0000003F, payload := [] } = .ok .rdstatus
    ∧ decode { header := 0xFFFFFF05, payload := [] } = .error .illegalOpcode

/-- R91: the assembler's three examples, with the responses the rule gives. -/
def Obligations.AssemblerExamples : Prop :=
  assembleLine "ROTL32 0x80000000, #1".toList = some { header := 0x00000103, payload := [0x80000000] }
    ∧ (∀ s : State, ∃ t, onPacket s 0x00000103 [0x80000000] = .next t
        ∧ t.responses = s.responses ++ [{ status := 0x00010300, result := [0x00000001] }])
    ∧ assembleLine "BLOCK.T".toList = some { header := 0x00000120, payload := [] }
    ∧ (∀ (s : State) (b : Words16), s.engine.state = some b → ∃ t r, onPacket s 0x00000120 [] = .next t
        ∧ t.responses = s.responses ++ [{ status := 0x0B8C2000, result := r }] ∧ r.length = 2956)
    ∧ ∃ p, assembleLine "XORS #15, data=h\"48656c6c6f20436861436861323021\"".toList = some p
        ∧ p.header = 0x000F0F33 ∧ p.payload.length = 4

/-! ## Each command's rule, on a packet

The header is written as the concatenation of its format's fields (R82) and the payload is any list of words, so
a statement covers every packet with the command's OPC. -/

/-- R102, R106: ADD32 and XOR32. -/
def Obligations.Add32AndXor32Packets : Prop :=
  ∀ (s : State) (f : BitVec 24) (p : List Word),
    (if f ≠ 0 then EndsInFault (onPacket s (f ++ 0x01#8) p) s 0x01 0x81
      else match p with
        | [a, b] => Completes (onPacket s (f ++ 0x01#8) p) s s.engine 0x01 [a + b]
        | _ => EndsInFault (onPacket s (f ++ 0x01#8) p) s 0x01 0x84)
      ∧ if f ≠ 0 then EndsInFault (onPacket s (f ++ 0x02#8) p) s 0x02 0x81
        else match p with
          | [a, b] => Completes (onPacket s (f ++ 0x02#8) p) s s.engine 0x02 [a ^^^ b]
          | _ => EndsInFault (onPacket s (f ++ 0x02#8) p) s 0x02 0x84

/-- R110: ROTL32, its codes in order 0x81, 0x82, 0x84. -/
def Obligations.Rotl32Packets : Prop :=
  ∀ (s : State) (f : BitVec 19) (n : BitVec 5) (p : List Word),
    if f ≠ 0 then EndsInFault (onPacket s (f ++ n ++ 0x03#8) p) s 0x03 0x81
    else if n = 0 then EndsInFault (onPacket s (f ++ n ++ 0x03#8) p) s 0x03 0x82
    else match p with
      | [a] => Completes (onPacket s (f ++ n ++ 0x03#8) p) s s.engine 0x03 [a.rotateLeft n.toNat]
      | _ => EndsInFault (onPacket s (f ++ n ++ 0x03#8) p) s 0x03 0x84

/-- R124: QR. -/
def Obligations.QrPackets : Prop :=
  ∀ (s : State) (f : BitVec 24) (p : List Word),
    if f ≠ 0 then EndsInFault (onPacket s (f ++ 0x04#8) p) s 0x04 0x81
    else match p with
      | [a, b, c, d] =>
        let r := qr { a := a, b := b, c := c, d := d }
        Completes (onPacket s (f ++ 0x04#8) p) s s.engine 0x04 [r.a, r.b, r.c, r.d]
      | _ => EndsInFault (onPacket s (f ++ 0x04#8) p) s 0x04 0x84

/-- R144: BUILD. On success STATE is the constant, the key words P[1..9), the counter P[0] and the nonce words
P[9..12), and the result is that State. -/
def Obligations.BuildPackets : Prop :=
  ∀ (s : State) (f nlen klen : BitVec 8) (p : List Word),
    let o := onPacket s (f ++ nlen ++ klen ++ 0x10#8) p
    if f ≠ 0 then EndsInFault o s 0x10 0x81
    else if p.length ≠ 1 + (klen.toNat + 3) / 4 + (nlen.toNat + 3) / 4 then EndsInFault o s 0x10 0x84
    else if klen ≠ 32 then EndsInError o s 0x10 0x01
    else if nlen ≠ 12 then EndsInError o s 0x10 0x02
    else ∃ b : Words16,
      b.toList = [0x61707865, 0x3320646e, 0x79622d32, 0x6b206574] ++ (p.drop 1).take 8 ++ p.take 1 ++ p.drop 9
        ∧ Completes o s { s.engine with state := some b } 0x10 b.toList

/-- R147, R194: LDSTATE and LDKS load any 16 words and any 64 bytes, `KS[4j+k] = P[j][8k+7:8k]`. -/
def Obligations.LoadPackets : Prop :=
  ∀ (s : State) (f : BitVec 24) (p : List Word),
    (let o := onPacket s (f ++ 0x11#8) p
      if f ≠ 0 then EndsInFault o s 0x11 0x81
      else if p.length ≠ 16 then EndsInFault o s 0x11 0x84
      else ∃ b : Words16, b.toList = p ∧ Completes o s { s.engine with state := some b } 0x11 [])
      ∧ (let o := onPacket s (f ++ 0x31#8) p
        if f ≠ 0 then EndsInFault o s 0x31 0x81
        else if p.length ≠ 16 then EndsInFault o s 0x31 0x84
        else ∃ k : KeyBytes,
          (∀ j m : Nat, ∀ _ : j < 16, ∀ _ : m < 4, k[4 * j + m] = (p.getD j 0).extractLsb' (8 * m) 8)
            ∧ Completes o s { s.engine with ks := some k } 0x31 [])

/-- R149, R178, R196: RDSTATE, RDOUT and RDKS answer their register, or 0x83 where it has no value. -/
def Obligations.ReadPackets : Prop :=
  ∀ (s : State) (f : BitVec 24) (p : List Word),
    (let o := onPacket s (f ++ 0x12#8) p
      if f ≠ 0 then EndsInFault o s 0x12 0x81
      else if p ≠ [] then EndsInFault o s 0x12 0x84
      else match s.engine.state with
        | none => EndsInFault o s 0x12 0x83
        | some b => Completes o s s.engine 0x12 b.toList)
      ∧ (let o := onPacket s (f ++ 0x21#8) p
        if f ≠ 0 then EndsInFault o s 0x21 0x81
        else if p ≠ [] then EndsInFault o s 0x21 0x84
        else match s.engine.out with
          | none => EndsInFault o s 0x21 0x83
          | some b => Completes o s s.engine 0x21 b.toList)
      ∧ (let o := onPacket s (f ++ 0x32#8) p
        if f ≠ 0 then EndsInFault o s 0x32 0x81
        else if p ≠ [] then EndsInFault o s 0x32 0x84
        else match s.engine.ks with
          | none => EndsInFault o s 0x32 0x83
          | some k => Completes o s s.engine 0x32 ((List.range 16).map (leWord k.toList)))

/-- R176: BLOCK writes OUT and nothing else; with T the encoded trace follows the 16 output words. -/
def Obligations.BlockPackets : Prop :=
  ∀ (s : State) (f : BitVec 23) (t : Bool) (p : List Word),
    let o := onPacket s (f ++ BitVec.ofBool t ++ 0x20#8) p
    if f ≠ 0 then EndsInFault o s 0x20 0x81
    else if p ≠ [] then EndsInFault o s 0x20 0x84
    else match s.engine.state with
      | none => EndsInFault o s 0x20 0x83
      | some b =>
        Completes o s { s.engine with out := some (block b) } 0x20
          ((block b).toList ++ if t then encodeTrace (blockTraced b).2 else [])

/-- R192: SERIAL writes the serialized OUT to KS, byte 4j+m being bits 8m+7..8m of word j, and answers OUT. -/
def Obligations.SerialPackets : Prop :=
  ∀ (s : State) (f : BitVec 24) (p : List Word),
    let o := onPacket s (f ++ 0x30#8) p
    if f ≠ 0 then EndsInFault o s 0x30 0x81
    else if p ≠ [] then EndsInFault o s 0x30 0x84
    else match s.engine.out with
      | none => EndsInFault o s 0x30 0x83
      | some b => ∃ k : KeyBytes,
        (∀ j m : Nat, ∀ _ : j < 16, ∀ _ : m < 4, k[4 * j + m] = b[j].extractLsb' (8 * m) 8)
          ∧ Completes o s { s.engine with ks := some k } 0x30 b.toList

/-- R200: XORS, its codes in order 0x85, 0x84, 0x03, 0x83, 0x04, and on success byte i of the result is data byte
i XOR KS byte (i mod KSLEN), packed with zero padding. -/
def Obligations.XorsPackets : Prop :=
  ∀ (s : State) (dlen : BitVec 16) (w : Bool) (kslen : BitVec 7) (p : List Word),
    let o := onPacket s (dlen ++ BitVec.ofBool w ++ kslen ++ 0x33#8) p
    if 64 < kslen.toNat then EndsInFault o s 0x33 0x85
    else if p.length ≠ (dlen.toNat + 3) / 4 then EndsInFault o s 0x33 0x84
    else if kslen = 0 then EndsInError o s 0x33 0x03
    else match s.engine.ks with
      | none => EndsInFault o s 0x33 0x83
      | some k =>
        if w = false ∧ kslen.toNat < dlen.toNat then EndsInError o s 0x33 0x04
        else ∃ r : List Byte,
          r.length = dlen.toNat
            ∧ (∀ i, i < dlen.toNat →
                r[i]? = some ((p.getD (i / 4) 0).extractLsb' (8 * (i % 4)) 8
                  ^^^ k.toList.getD (i % kslen.toNat) 0))
            ∧ Completes o s s.engine 0x33
                ((List.range ((dlen.toNat + 3) / 4)).map (leWord (r ++ [0, 0, 0])))

/-- R220: RDSTATUS answers STATUS as it was before this command; the command's own update comes after. -/
def Obligations.RdstatusPackets : Prop :=
  ∀ (s : State) (f : BitVec 24) (p : List Word),
    let o := onPacket s (f ++ 0x3F#8) p
    if f ≠ 0 then EndsInFault o s 0x3F 0x81
    else if p ≠ [] then EndsInFault o s 0x3F 0x84
    else Completes o s s.engine 0x3F [s.engine.status]

/-! ## Each command completes

The conclusion is the command's whole next state, under hypotheses on the state and the operands alone. -/

/-- ADD32, XOR32, ROTL32 with a nonzero amount, and QR complete on every state and write no data register (R102,
R106, R110, R124). -/
def Obligations.WordCommandsComplete : Prop :=
  ∀ (s : State) (a b c d : Word) (n : BitVec 5),
    Completes (exec (.add32 a b) s) s s.engine 0x01 [a + b]
      ∧ Completes (exec (.xor32 a b) s) s s.engine 0x02 [a ^^^ b]
      ∧ (n ≠ 0 → Completes (exec (.rotl32 n a) s) s s.engine 0x03 [a.rotateLeft n.toNat])
      ∧ Completes (exec (.qr a b c d) s) s s.engine 0x04
          [(qr ⟨a, b, c, d⟩).a, (qr ⟨a, b, c, d⟩).b, (qr ⟨a, b, c, d⟩).c, (qr ⟨a, b, c, d⟩).d]

/-- BUILD with a 32-byte key and a 12-byte nonce completes: STATE is laid out by R140, whatever the counter; OUT and
KS keep their values (R144, R272). -/
def Obligations.BuildCompletes : Prop :=
  ∀ (s : State) (counter : Word) (key nonce : List Byte), key.length = 32 → nonce.length = 12 →
    ∃ b : Words16,
      b.toList = [0x61707865, 0x3320646e, 0x79622d32, 0x6b206574]
          ++ (List.range 8).map (leWord key) ++ [counter] ++ (List.range 3).map (leWord nonce)
        ∧ Completes (exec (.build counter key nonce) s) s { s.engine with state := some b } 0x10 b.toList

/-- LDSTATE and LDKS complete on every state, with no check of what they load (R147, R194). -/
def Obligations.LoadsComplete : Prop :=
  ∀ (s : State) (b : Words16) (k : KeyBytes),
    Completes (exec (.ldstate b) s) s { s.engine with state := some b } 0x11 []
      ∧ Completes (exec (.ldks k) s) s { s.engine with ks := some k } 0x31 []

/-- RDSTATE, RDOUT and RDKS complete when their register has a value, and RDSTATUS always; none writes a data
register (R149, R178, R196, R220). -/
def Obligations.ReadsComplete : Prop :=
  ∀ (s : State),
    (∀ b, s.engine.state = some b → Completes (exec .rdstate s) s s.engine 0x12 b.toList)
      ∧ (∀ b, s.engine.out = some b → Completes (exec .rdout s) s s.engine 0x21 b.toList)
      ∧ (∀ k, s.engine.ks = some k →
          Completes (exec .rdks s) s s.engine 0x32 ((List.range 16).map (leWord k.toList)))
      ∧ Completes (exec .rdstatus s) s s.engine 0x3F [s.engine.status]

/-- BLOCK, traced or not, completes when STATE has a value, writes OUT alone, and never changes STATE (R176). -/
def Obligations.BlockCompletes : Prop :=
  ∀ (s : State) (b : Words16), s.engine.state = some b →
    Completes (exec (.block false) s) s { s.engine with out := some (block b) } 0x20 (block b).toList
      ∧ Completes (exec (.block true) s) s { s.engine with out := some (block b) } 0x20
          ((block b).toList ++ encodeTrace (blockTraced b).2)

/-- SERIAL completes when OUT has a value, writes KS alone, and answers the words of OUT (R192). -/
def Obligations.SerialCompletes : Prop :=
  ∀ (s : State) (b : Words16), s.engine.out = some b →
    ∃ k : KeyBytes, k.toList = b.toList.flatMap leBytes
      ∧ Completes (exec .serial s) s { s.engine with ks := some k } 0x30 b.toList

/-- XORS completes when 1 ≤ KSLEN ≤ 64, KS has a value, and the data fits the keystream or W is 1; it writes no data
register and consumes no keystream (R200, R202). -/
def Obligations.XorsCompletes : Prop :=
  ∀ (s : State) (kslen : BitVec 7) (w : Bool) (data : List Byte) (k : KeyBytes),
    s.engine.ks = some k → 1 ≤ kslen.toNat → kslen.toNat ≤ 64 → (w = true ∨ data.length ≤ kslen.toNat) →
    ∃ r : List Byte,
      r.length = data.length
        ∧ (∀ i, i < data.length →
            r[i]? = some (data.getD i 0 ^^^ k.toList.getD (i % kslen.toNat) 0))
        ∧ Completes (exec (.xors kslen w data) s) s s.engine 0x33 (pack r)

/-! ## Where a command ends with a code -/

/-- R240: a command that needs STATE, OUT or KS ends with 0x83 where that register has no value, never with a
number. XORS reaches this check when its KSLEN is 1..64. -/
def Obligations.UnwrittenOperandIsRefused : Prop :=
  ∀ s : State,
    (s.engine.state = none → ∀ t, EndsInFault (exec .rdstate s) s 0x12 0x83
        ∧ EndsInFault (exec (.block t) s) s 0x20 0x83)
      ∧ (s.engine.out = none → EndsInFault (exec .rdout s) s 0x21 0x83
        ∧ EndsInFault (exec .serial s) s 0x30 0x83)
      ∧ (s.engine.ks = none → EndsInFault (exec .rdks s) s 0x32 0x83
        ∧ ∀ (kslen : BitVec 7) (w : Bool) (data : List Byte), 1 ≤ kslen.toNat → kslen.toNat ≤ 64 →
            EndsInFault (exec (.xors kslen w data) s) s 0x33 0x83)

/-- R110, R144, R200, R236 item 5: the operand values the commands refuse, key before nonce, and an empty
keystream before an unwritten KS. -/
def Obligations.RefusedOperandValues : Prop :=
  ∀ s : State,
    (∀ a, EndsInFault (exec (.rotl32 0 a) s) s 0x03 0x82)
      ∧ (∀ counter key nonce, key.length ≠ 32 → EndsInError (exec (.build counter key nonce) s) s 0x10 0x01)
      ∧ (∀ counter key nonce, key.length = 32 → nonce.length ≠ 12 →
          EndsInError (exec (.build counter key nonce) s) s 0x10 0x02)
      ∧ (∀ kslen w data, 64 < BitVec.toNat kslen → EndsInFault (exec (.xors kslen w data) s) s 0x33 0x85)
      ∧ (∀ w data, EndsInError (exec (.xors 0 w data) s) s 0x33 0x03)
      ∧ (∀ kslen data, 1 ≤ BitVec.toNat kslen → BitVec.toNat kslen ≤ 64 → s.engine.ks ≠ none →
          BitVec.toNat kslen < data.length → EndsInError (exec (.xors kslen false data) s) s 0x33 0x04)

/-- R86, R232, R236: every packet, legal or not, on every state, gets exactly one response and a next state. The
code is the first that applies in the order of R236; LAST_CODE, LAST_OPC and the sticky bits follow it, and the
status word carries RLEN, the OPC as received, and the code. -/
def Obligations.EveryPacketEndsWithItsCode : Prop :=
  ∀ (s : State) (h : Word) (p : List Word),
    let c := packetCode s.engine { header := h, payload := p }
    ∃ t r, onPacket s h p = .next t
      ∧ t.pending = s.pending
      ∧ t.responses = s.responses ++ [{ status := BitVec.ofNat 16 r.length ++ h.extractLsb' 0 8 ++ c, result := r }]
      ∧ t.engine.lastCode = c
      ∧ t.engine.lastOpc = h.extractLsb' 0 8
      ∧ t.engine.stickyErr = (s.engine.stickyErr || (decide (0x01 ≤ c) && decide (c ≤ 0x04)))
      ∧ t.engine.stickyFault = (s.engine.stickyFault || decide (0x80 ≤ c))

/-- R234: a packet that ends with a code other than 0x00 writes no data register and returns no result words; only
LAST_CODE, LAST_OPC and the sticky bits change. -/
def Obligations.ErrorsArePrecise : Prop :=
  ∀ (s t : State) (h : Word) (p : List Word), onPacket s h p = .next t → t.engine.lastCode ≠ 0x00 →
    t.engine.state = s.engine.state ∧ t.engine.out = s.engine.out ∧ t.engine.ks = s.engine.ks
      ∧ t.pending = s.pending
      ∧ ∃ w, t.responses = s.responses ++ [{ status := w, result := [] }]

/-! ## The whole machine -/

/-- When the next input is a packet that decodes to a command, the step is that command's meaning on the state with
the input taken off the stream, and nothing else (R63, R86). -/
def Obligations.StepRunsTheDecodedCommand : Prop :=
  ∀ (s : State) (p : Packet) (i : Instr) (rest : List HostInput),
    s.pending = .packet p :: rest → decode p = .ok i → step s = exec i { s with pending := rest }

/-- R247, R260, R66: with no input the engine keeps all its state; a reset between commands gives the engine its
reset values; a reset during a command and a second host are refused by name. That the stream and the sent
responses survive a reset is the model's choice (log 4), as is the idle step (log 2). -/
def Obligations.OtherInputs : Prop :=
  ∀ (s : State) (rest : List HostInput) (p : Packet),
    (s.pending = [] → step s = .next s)
      ∧ (s.pending = .reset :: rest → step s = .next { s with engine := State.reset.engine, pending := rest })
      ∧ (s.pending = .resetDuring p :: rest → step s = .refused .resetDuringCommand)
      ∧ (s.pending = .secondHost p :: rest → step s = .refused .interleavedHosts)

/-- R35: what reset leaves in every piece of state, and STATUS as a word. -/
def Obligations.ResetValues : Prop :=
  State.reset.engine.state = none ∧ State.reset.engine.out = none ∧ State.reset.engine.ks = none
    ∧ State.reset.engine.lastCode = 0x00 ∧ State.reset.engine.lastOpc = 0x00
    ∧ State.reset.engine.stickyErr = false ∧ State.reset.engine.stickyFault = false
    ∧ State.reset.engine.status = 0x00000000

/-- R27: the fields of the STATUS word. -/
def Obligations.StatusFields : Prop :=
  ∀ e : Engine,
    e.status.extractLsb' 0 8 = e.lastCode
      ∧ e.status.extractLsb' 8 8 = e.lastOpc
      ∧ e.status.getLsbD 16 = e.stickyErr
      ∧ e.status.getLsbD 17 = e.stickyFault
      ∧ e.status.getLsbD 18 = e.state.isSome
      ∧ e.status.getLsbD 19 = e.out.isSome
      ∧ e.status.getLsbD 20 = e.ks.isSome
      ∧ e.status.extractLsb' 21 11 = 0

/-- R28: a step other than the reset input never clears a sticky bit, a command that ends with 0x00 leaves both as
they were, and the reset input clears both. -/
def Obligations.OnlyResetClearsStickyBits : Prop :=
  ∀ s t : State, step s = .next t →
    ((∀ rest, s.pending ≠ .reset :: rest) →
        (s.engine.stickyErr = true → t.engine.stickyErr = true)
          ∧ (s.engine.stickyFault = true → t.engine.stickyFault = true)
          ∧ (t.engine.lastCode = 0x00 →
              t.engine.stickyErr = s.engine.stickyErr ∧ t.engine.stickyFault = s.engine.stickyFault))
      ∧ ((∃ rest, s.pending = .reset :: rest) →
          t.engine.stickyErr = false ∧ t.engine.stickyFault = false)

/-- R23, R202: only BUILD and LDSTATE write STATE, so only they change its counter word; only BLOCK writes OUT; only
SERIAL and LDKS write KS. A register once written never returns to no value. -/
def Obligations.RegisterWriters : Prop :=
  ∀ (i : Instr) (s t : State), exec i s = .next t →
    (i.opcode ≠ .build → i.opcode ≠ .ldstate → t.engine.state = s.engine.state)
      ∧ (i.opcode ≠ .block → t.engine.out = s.engine.out)
      ∧ (i.opcode ≠ .serial → i.opcode ≠ .ldks → t.engine.ks = s.engine.ks)
      ∧ (s.engine.state ≠ none → t.engine.state ≠ none)
      ∧ (s.engine.out ≠ none → t.engine.out ≠ none)
      ∧ (s.engine.ks ≠ none → t.engine.ks ≠ none)

/-- From any state that meets the invariant, any step to a next state gives a state that meets it: LAST_CODE is a
code of R230, the sticky bit of its class is set, OUT has a value only if STATE has one, and every response's
RLEN counts its words, its code is one of R230, and an error has no words. -/
def Obligations.InvariantIsKept : Prop := ∀ s t : State, stateWf s → step s = .next t → stateWf t

/-- The invariant holds right after reset. -/
def Obligations.InvariantAtReset : Prop := stateWf State.reset

/-- R63, R231, R277: from any state whose stream is a list of packets, the run answers every packet, in order, and
stops at none of them; the responses already sent stay as they were. -/
def Obligations.RunAnswersEveryPacket : Prop :=
  ∀ (cs : List Packet) (s : State), s.pending = cs.map .packet →
    ∃ (t : State) (rs : List Response),
      Host.Core.run core cs.length s = .next t
        ∧ t.pending = []
        ∧ t.responses = s.responses ++ rs
        ∧ rs.length = cs.length
        ∧ rs.map (fun r => r.status.extractLsb' 8 8) = cs.map (fun p => p.header.extractLsb' 0 8)

/-- R63: the state after c1..ck, d is the step of d on the state after c1..ck; the packets still to come change
nothing before. -/
def Obligations.RunIsSequential : Prop :=
  ∀ (cs : List Packet) (d : Packet) (s t : State),
    Host.Core.run core cs.length { s with pending := cs.map .packet } = .next t →
      Host.Core.run core (cs.length + 1) { s with pending := (cs ++ [d]).map .packet }
        = onPacket t d.header d.payload

/-- R60: a read command changes no data register, and repeating it changes nothing on the engine. RDSTATE, RDOUT and
RDKS answer the same response each time, and RDSTATUS the same from its second answer on. -/
def Obligations.ReadsRepeat : Prop :=
  ∀ (i : Instr) (s t u : State), i.opcode ∈ [Opcode.rdstate, .rdout, .rdks, .rdstatus] →
    exec i s = .next t → exec i t = .next u →
      t.engine.state = s.engine.state ∧ t.engine.out = s.engine.out ∧ t.engine.ks = s.engine.ks
        ∧ u.engine = t.engine
        ∧ (i.opcode ≠ .rdstatus → ∃ r, t.responses = s.responses ++ [r] ∧ u.responses = t.responses ++ [r])
        ∧ (i.opcode = .rdstatus → ∃ v r, exec i u = .next v
            ∧ u.responses = t.responses ++ [r] ∧ v.responses = u.responses ++ [r])

/-- R176: running BLOCK twice on the same STATE gives the same OUT and the same response, and OUT does not depend on
T. -/
def Obligations.BlockRepeats : Prop :=
  ∀ (t : Bool) (s u v : State), exec (.block t) s = .next u → exec (.block t) u = .next v →
    v.engine.out = u.engine.out
      ∧ (∃ r, u.responses = s.responses ++ [r] ∧ v.responses = u.responses ++ [r])
      ∧ ∀ (t' : Bool) (u' : State), exec (.block t') s = .next u' → u'.engine = u.engine

/-- R58, R200: XORS reads only the first KSLEN bytes of KS: on two states whose KS agree there, and that are equal
otherwise, it answers the same and leaves KS as it was. -/
def Obligations.XorsReadsOnlyItsKeystream : Prop :=
  ∀ (s : State) (k k' : KeyBytes) (kslen : BitVec 7) (w : Bool) (data : List Byte),
    (∀ j, j < kslen.toNat → k.toList.getD j 0 = k'.toList.getD j 0) →
    ∃ (e : Engine) (r : Response),
      exec (.xors kslen w data) { s with engine := { s.engine with ks := some k } }
          = .next { s with engine := { e with ks := some k }, responses := s.responses ++ [r] }
        ∧ exec (.xors kslen w data) { s with engine := { s.engine with ks := some k' } }
          = .next { s with engine := { e with ks := some k' }, responses := s.responses ++ [r] }

/-- R199, R200: running XORS on its own output with the same KSLEN gives the data back. The output is the byte string
of the response's result words. -/
def Obligations.XorsTwiceGivesTheData : Prop :=
  ∀ (s t : State) (kslen : BitVec 7) (w : Bool) (data : List Byte) (r : List Word),
    exec (.xors kslen w data) s = .next t → t.engine.lastCode = 0x00 →
    t.responses = s.responses ++ [{ status := BitVec.ofNat 16 r.length ++ 0x3300#16, result := r }] →
    Completes (exec (.xors kslen w (unpack r data.length)) t) t t.engine 0x33 (pack data)

/-- R92, R270, R271: ENCRYPTN is refused exactly when its last counter would pass 0xFFFFFFFF; else its commands are,
for each chunk i, BUILD with counter C + i, BLOCK, SERIAL, and XORS #64 of the data bytes [64i, min(64i+64, L)).
The chunks joined are the data, and the commands meet the host's duties, as `hostDuty` reads them (the model's
choice, log 14). -/
def Obligations.EncryptNMeetsTheHostDuties : Prop :=
  ∀ (key : List Byte) (counter : Word) (nonce data : List Byte),
    ((Pseudo.encryptN key counter nonce data).expand = none
        ↔ data ≠ [] ∧ 0xFFFFFFFF < counter.toNat + (data.length + 63) / 64 - 1)
      ∧ ∀ is, (Pseudo.encryptN key counter nonce data).expand = some is →
          is = (List.range ((data.length + 63) / 64)).flatMap (fun i =>
              [.build (BitVec.ofNat 32 (counter.toNat + i)) key nonce, .block false, .serial,
                .xors 64 false ((data.drop (64 * i)).take 64)])
            ∧ hostDuty is
            ∧ (is.flatMap fun i => match i with | .xors _ _ d => d | _ => []) = data
end

