-- ==== Sys2Proof/Config.lean ====
section
/-! DEFINITION. The OPEN parameters of the spec (92_eei_decisions.md D34, D35; 93 rows 18 to 20). The spec
names them and says that no rule reads them; they are constants with no body, so no proof can use a
value of theirs. The fixed values of R34 are not here: they stand with the operation that uses each. -/

namespace Sys2Proof

/-- How long the engine takes for a command: finite, and read by no rule (R275, D34). The model has no
time. DESIGN CHOICE, log 7 (safe). -/
opaque Config.latency : Packet → Nat

/-- The order in which a physical bus carries the four bytes of a packet word, as the list of the byte
numbers sent: outside the spec, read by no rule (R55, D35). DESIGN CHOICE, log 7 (safe). -/
opaque Config.busByteOrder : List (Fin 4)

/-- Where the engine's command port sits in a host's address space: the platform's choice, read by no
rule (R61, D35). DESIGN CHOICE, log 7 (safe). -/
opaque Config.commandPortAddress : Nat

end Sys2Proof
end

