-- ==== Sys2Proof/Laws/Decode.lean ====
section
/-! SUPPORT. The header fields of a word written as the concatenation of R82's layout (30_encoding.md R82, R83),
and the lengths of packed byte strings (20_memory.md R54). -/

namespace Sys2Proof

open Machine

/-! ## Fields of a concatenation

The width of a concatenation is a sum that computes to the width of the word; `append_bit_hi` and
`append_bit_lo` read a bit of it whatever spelling the width has. -/

section
variable {v w n : Nat} (h : v + w = n) (x : BitVec v) (y : BitVec w) (i : Nat)

theorem append_bit : BitVec.getLsbD (w := n) (h ▸ (x ++ y)) i
    = if i < w then y.getLsbD i else x.getLsbD (i - w) := by
  subst h; exact BitVec.getLsbD_append

theorem append_bit_lo (hi : i < w) : BitVec.getLsbD (w := n) (h ▸ (x ++ y)) i = y.getLsbD i := by
  rw [append_bit, if_pos hi]

theorem append_bit_hi (hi : w ≤ i) : BitVec.getLsbD (w := n) (h ▸ (x ++ y)) i = x.getLsbD (i - w) := by
  rw [append_bit, if_neg (by omega)]

end

theorem opcField_append (f : BitVec 24) (o : Byte) : opcField (f ++ o) = o := by
  ext i hi
  simp only [opcField, BitVec.getElem_extractLsb']
  refine (append_bit_lo rfl f o _ (by omega)).trans ?_
  simp [hi]

theorem nField_append (r : BitVec 19) (n : BitVec 5) (o : Byte) : nField (r ++ n ++ o) = n := by
  ext i hi
  simp only [nField, BitVec.getElem_extractLsb']
  refine (append_bit_hi rfl (r ++ n) o _ (by omega)).trans ((append_bit_lo rfl r n _ (by omega)).trans ?_)
  simp [hi]

theorem klenField_append (r n k o : BitVec 8) : klenField (r ++ n ++ k ++ o) = k := by
  ext i hi
  simp only [klenField, BitVec.getElem_extractLsb']
  refine (append_bit_hi rfl (r ++ n ++ k) o _ (by omega)).trans
    ((append_bit_lo rfl (r ++ n) k _ (by omega)).trans ?_)
  simp [hi]

theorem nlenField_append (r n k o : BitVec 8) : nlenField (r ++ n ++ k ++ o) = n := by
  ext i hi
  simp only [nlenField, BitVec.getElem_extractLsb']
  refine (append_bit_hi rfl (r ++ n ++ k) o _ (by omega)).trans
    ((append_bit_hi rfl (r ++ n) k _ (by omega)).trans ((append_bit_lo rfl r n _ (by omega)).trans ?_))
  simp [show 16 + i - 8 - 8 = i by omega, hi]

theorem tField_append (r : BitVec 23) (t : Bool) (o : Byte) : tField (r ++ BitVec.ofBool t ++ o) = t := by
  refine (append_bit_hi rfl (r ++ BitVec.ofBool t) o 8 (by omega)).trans
    ((append_bit_lo rfl r (BitVec.ofBool t) _ (by omega)).trans ?_)
  cases t <;> decide

theorem kslenField_append (d : BitVec 16) (w : Bool) (k : BitVec 7) (o : Byte) :
    kslenField (d ++ BitVec.ofBool w ++ k ++ o) = k := by
  ext i hi
  simp only [kslenField, BitVec.getElem_extractLsb']
  refine (append_bit_hi rfl (d ++ BitVec.ofBool w ++ k) o _ (by omega)).trans
    ((append_bit_lo rfl (d ++ BitVec.ofBool w) k _ (by omega)).trans ?_)
  simp [hi]

theorem wField_append (d : BitVec 16) (w : Bool) (k : BitVec 7) (o : Byte) :
    wField (d ++ BitVec.ofBool w ++ k ++ o) = w := by
  refine (append_bit_hi rfl (d ++ BitVec.ofBool w ++ k) o 15 (by omega)).trans
    ((append_bit_hi rfl (d ++ BitVec.ofBool w) k _ (by omega)).trans
      ((append_bit_lo rfl d (BitVec.ofBool w) _ (by omega)).trans ?_))
  cases w <;> decide

theorem dlenField_append (d : BitVec 16) (w : Bool) (k : BitVec 7) (o : Byte) :
    dlenField (d ++ BitVec.ofBool w ++ k ++ o) = d := by
  ext i hi
  simp only [dlenField, BitVec.getElem_extractLsb']
  refine (append_bit_hi rfl (d ++ BitVec.ofBool w ++ k) o _ (by omega)).trans
    ((append_bit_hi rfl (d ++ BitVec.ofBool w) k _ (by omega)).trans
      ((append_bit_hi rfl d (BitVec.ofBool w) _ (by omega)).trans ?_))
  simp [show 16 + i - 8 - 7 - 1 = i by omega, hi]

/-! ## Opcodes -/

/-- The opcode map read backwards (R87). -/
@[simp] theorem Opcode.ofByte_toByte (op : Opcode) : Opcode.ofByte op.toByte = some op := by
  cases op <;> decide

theorem Opcode.toByte_of_ofByte {b : Byte} {op : Opcode} (h : Opcode.ofByte b = some op) :
    op.toByte = b := by
  have := List.find?_some h
  simpa using this

/-- The decoder on a packet whose OPC is a command's: the reserved bits, the payload length, the operands (R86). -/
theorem decode_of_opcField {h : Word} {p : List Word} {op : Opcode} (ho : opcField h = op.toByte) :
    decode { header := h, payload := p } =
      if h &&& op.format.rsvdMask ≠ 0 then .error .reservedFieldNonzero
      else if p.length ≠ plenOf op h then .error (badPayloadCode op h)
      else .ok (readOperands op h p) := by
  simp only [decode, ho, Opcode.ofByte_toByte]

/-! ## Reserved bits of a concatenation (R86, R88) -/

/-- A mask that is ones from bit k up selects exactly the high part x of a word whose low part has k bits. -/
theorem append_and_mask {v k n : Nat} (hw : v + k = n) (x : BitVec v) (y : BitVec k) (m : BitVec n)
    (hm : ∀ i, i < n → m.getLsbD i = decide (k ≤ i)) :
    (hw ▸ (x ++ y) : BitVec n) &&& m = 0 ↔ x = 0 := by
  constructor
  · intro h
    refine BitVec.eq_of_getLsbD_eq fun i hi => ?_
    have h2 := congrArg (fun z => BitVec.getLsbD z (i + k)) h
    simp only [BitVec.getLsbD_and] at h2
    rw [hm _ (by omega), append_bit_hi hw x y (i + k) (by omega)] at h2
    simpa using h2
  · rintro rfl
    refine BitVec.eq_of_getLsbD_eq fun i hi => ?_
    rw [BitVec.getLsbD_and, hm i hi]
    by_cases hk : k ≤ i
    · rw [append_bit_hi hw _ y i hk]; simp
    · simp [hk]

theorem reserved_f0 (f : BitVec 24) (o : Byte) :
    (f ++ o : BitVec 32) &&& Format.f0.rsvdMask = 0 ↔ f = 0 :=
  append_and_mask rfl f o Format.f0.rsvdMask (by decide)

theorem reserved_fr (f : BitVec 19) (n : BitVec 5) (o : Byte) :
    (f ++ n ++ o : BitVec 32) &&& Format.fr.rsvdMask = 0 ↔ f = 0 := by
  have e : (f ++ n ++ o : BitVec 32) = f ++ (n ++ o : BitVec 13) := BitVec.append_assoc
  rw [e]
  exact append_and_mask rfl f (n ++ o : BitVec 13) Format.fr.rsvdMask (by decide)

theorem reserved_fb (f n k o : BitVec 8) :
    (f ++ n ++ k ++ o : BitVec 32) &&& Format.fb.rsvdMask = 0 ↔ f = 0 := by
  have e : (f ++ n ++ k ++ o : BitVec 32) = f ++ (n ++ k ++ o : BitVec 24) := by
    refine BitVec.eq_of_getLsbD_eq fun i hi => ?_
    have l := append_bit rfl (f ++ n ++ k : BitVec 24) o i (n := 32)
    have l2 := append_bit rfl (f ++ n : BitVec 16) k (i - 8) (n := 24)
    have l3 := append_bit rfl f n (i - 8 - 8) (n := 16)
    have r := append_bit rfl f (n ++ k ++ o : BitVec 24) i (n := 32)
    have r2 := append_bit rfl (n ++ k : BitVec 16) o i (n := 24)
    have r3 := append_bit rfl n k (i - 8) (n := 16)
    refine l.trans (Eq.trans ?_ r.symm)
    rw [l2, l3, r2, r3]
    split_ifs <;> first | rfl | omega
  rw [e]
  exact append_and_mask rfl f (n ++ k ++ o : BitVec 24) Format.fb.rsvdMask (by decide)

theorem reserved_ft (f : BitVec 23) (t : BitVec 1) (o : Byte) :
    (f ++ t ++ o : BitVec 32) &&& Format.ft.rsvdMask = 0 ↔ f = 0 := by
  have e : (f ++ t ++ o : BitVec 32) = f ++ (t ++ o : BitVec 9) := BitVec.append_assoc
  rw [e]
  exact append_and_mask rfl f (t ++ o : BitVec 9) Format.ft.rsvdMask (by decide)

theorem reserved_fx (h : Word) : h &&& Format.fx.rsvdMask = 0 := BitVec.and_zero

/-! ## The bytes of a word (20_memory.md R52, R53) -/

theorem byteOf_getLsbD (x : Word) (k j : Nat) :
    (byteOf x k).getLsbD j = (decide (j < 8) && x.getLsbD (8 * k + j)) := by
  simp [byteOf]

theorem byteOf_leWord4 (a b c d : Byte) :
    byteOf (leWord4 a b c d) 0 = a ∧ byteOf (leWord4 a b c d) 1 = b
      ∧ byteOf (leWord4 a b c d) 2 = c ∧ byteOf (leWord4 a b c d) 3 = d := by
  refine ⟨?_, ?_, ?_, ?_⟩ <;> refine BitVec.eq_of_getLsbD_eq fun i hi => ?_ <;>
    simp only [byteOf_getLsbD, leWord4, hi, decide_true, Bool.true_and]
  · exact append_bit_lo rfl (d ++ c ++ b) a _ (by omega) |>.trans (by simp)
  · exact (append_bit_hi rfl (d ++ c ++ b) a _ (by omega)).trans
      ((append_bit_lo rfl (d ++ c) b _ (by omega)).trans (by congr 1; omega))
  · exact (append_bit_hi rfl (d ++ c ++ b) a _ (by omega)).trans
      ((append_bit_hi rfl (d ++ c) b _ (by omega)).trans
        ((append_bit_lo rfl d c _ (by omega)).trans (by congr 1; omega)))
  · exact (append_bit_hi rfl (d ++ c ++ b) a _ (by omega)).trans
      ((append_bit_hi rfl (d ++ c) b _ (by omega)).trans
        ((append_bit_hi rfl d c _ (by omega)).trans (by congr 1; omega)))

/-- A word is made of its four bytes. -/
theorem leWord4_byteOf (x : Word) :
    leWord4 (byteOf x 0) (byteOf x 1) (byteOf x 2) (byteOf x 3) = x := by
  refine BitVec.eq_of_getLsbD_eq fun i hi => ?_
  simp only [leWord4]
  refine (append_bit rfl _ _ i).trans ?_
  split
  · rw [byteOf_getLsbD, show 8 * 0 + i = i by omega]; simp [*]
  refine (append_bit rfl _ _ _).trans ?_
  split
  · rw [byteOf_getLsbD, show 8 * 1 + (i - 8) = i by omega]; simp [*]
  refine (append_bit rfl _ _ _).trans ?_
  split
  · rw [byteOf_getLsbD, show 8 * 2 + (i - 8 - 8) = i by omega]; simp [*]
  · rw [byteOf_getLsbD, show 8 * 3 + (i - 8 - 8 - 8) = i by omega]; simp [show i - 8 - 8 - 8 < 8 by omega]

theorem leBytes_leWord4 (a b c d : Byte) : leBytes (leWord4 a b c d) = [a, b, c, d] := by
  have h := byteOf_leWord4 a b c d
  simp [leBytes, h]

/-! ## Lengths -/

@[simp] theorem leBytes_length (x : Word) : (leBytes x).length = 4 := rfl

theorem pack_length (bs : List Byte) : (pack bs).length = wordCount bs.length := by
  induction bs using pack.induct with
  | case1 => simp [pack, wordCount]
  | case2 => simp [pack, wordCount]
  | case3 => simp [pack, wordCount]
  | case4 => simp [pack, wordCount]
  | case5 a b c d rest ih => simp only [pack, List.length_cons, ih, wordCount]; omega

theorem flatMap_leBytes_length (ws : List Word) : (ws.flatMap leBytes).length = 4 * ws.length := by
  induction ws with
  | nil => rfl
  | cons w ws ih => simp only [List.flatMap_cons, List.length_append, leBytes_length, List.length_cons, ih]; omega

theorem unpack_length (ws : List Word) (n : Nat) : (unpack ws n).length = min n (4 * ws.length) := by
  rw [unpack, List.length_take, flatMap_leBytes_length]

/-- A decoded byte string has the length its header field announces (R54, R84). -/
theorem unpack_length_of_wordCount {ws : List Word} {n : Nat} (h : ws.length = wordCount n) :
    (unpack ws n).length = n := by
  rw [unpack_length, h, wordCount]; omega

end Sys2Proof
end

