-- ==== Sys2Proof/Laws/State.lean ====
section
/-! SUPPORT. One lemma per field per update of the state (10_state.md R21, 60_exceptions.md R232). -/

namespace Sys2Proof.Machine

variable (e : Engine) (s : State) (b : Words16) (k : KeyBytes) (c : Code) (opc : Byte) (op : Opcode)
  (r : List Word) (rest : List HostInput)

/-! ## Writing a data register -/

@[simp] theorem Engine.writeState_state : (e.writeState b).state = some b := rfl
@[simp] theorem Engine.writeState_out : (e.writeState b).out = e.out := rfl
@[simp] theorem Engine.writeState_ks : (e.writeState b).ks = e.ks := rfl
@[simp] theorem Engine.writeState_lastCode : (e.writeState b).lastCode = e.lastCode := rfl
@[simp] theorem Engine.writeState_lastOpc : (e.writeState b).lastOpc = e.lastOpc := rfl
@[simp] theorem Engine.writeState_stickyErr : (e.writeState b).stickyErr = e.stickyErr := rfl
@[simp] theorem Engine.writeState_stickyFault : (e.writeState b).stickyFault = e.stickyFault := rfl

@[simp] theorem Engine.writeOut_state : (e.writeOut b).state = e.state := rfl
@[simp] theorem Engine.writeOut_out : (e.writeOut b).out = some b := rfl
@[simp] theorem Engine.writeOut_ks : (e.writeOut b).ks = e.ks := rfl
@[simp] theorem Engine.writeOut_lastCode : (e.writeOut b).lastCode = e.lastCode := rfl
@[simp] theorem Engine.writeOut_lastOpc : (e.writeOut b).lastOpc = e.lastOpc := rfl
@[simp] theorem Engine.writeOut_stickyErr : (e.writeOut b).stickyErr = e.stickyErr := rfl
@[simp] theorem Engine.writeOut_stickyFault : (e.writeOut b).stickyFault = e.stickyFault := rfl

@[simp] theorem Engine.writeKs_state : (e.writeKs k).state = e.state := rfl
@[simp] theorem Engine.writeKs_out : (e.writeKs k).out = e.out := rfl
@[simp] theorem Engine.writeKs_ks : (e.writeKs k).ks = some k := rfl
@[simp] theorem Engine.writeKs_lastCode : (e.writeKs k).lastCode = e.lastCode := rfl
@[simp] theorem Engine.writeKs_lastOpc : (e.writeKs k).lastOpc = e.lastOpc := rfl
@[simp] theorem Engine.writeKs_stickyErr : (e.writeKs k).stickyErr = e.stickyErr := rfl
@[simp] theorem Engine.writeKs_stickyFault : (e.writeKs k).stickyFault = e.stickyFault := rfl

/-! ## The STATUS update -/

@[simp] theorem Engine.record_state : (e.record opc c).state = e.state := rfl
@[simp] theorem Engine.record_out : (e.record opc c).out = e.out := rfl
@[simp] theorem Engine.record_ks : (e.record opc c).ks = e.ks := rfl
@[simp] theorem Engine.record_lastCode : (e.record opc c).lastCode = c.toByte := rfl
@[simp] theorem Engine.record_lastOpc : (e.record opc c).lastOpc = opc := rfl
@[simp] theorem Engine.record_stickyErr :
    (e.record opc c).stickyErr = (e.stickyErr || c.isInputError) := rfl
@[simp] theorem Engine.record_stickyFault :
    (e.record opc c).stickyFault = (e.stickyFault || c.isCommandFault) := rfl

/-! ## Ending a command -/

@[simp] theorem State.finish_engine : (s.finish e opc c r).engine = e.record opc c := rfl
@[simp] theorem State.finish_pending : (s.finish e opc c r).pending = s.pending := rfl
@[simp] theorem State.finish_responses :
    (s.finish e opc c r).responses = s.responses ++ [respond opc c r] := rfl

@[simp] theorem State.complete_engine : (s.complete e op r).engine = e.record op.toByte .ok := rfl
@[simp] theorem State.complete_pending : (s.complete e op r).pending = s.pending := rfl
@[simp] theorem State.complete_responses :
    (s.complete e op r).responses = s.responses ++ [respond op.toByte .ok r] := rfl

@[simp] theorem State.raise_engine : (s.raise opc c).engine = s.engine.record opc c := rfl
@[simp] theorem State.raise_pending : (s.raise opc c).pending = s.pending := rfl
@[simp] theorem State.raise_responses :
    (s.raise opc c).responses = s.responses ++ [respond opc c []] := rfl

/-! ## The port and the reset input -/

@[simp] theorem State.takeInput_engine : (s.takeInput rest).engine = s.engine := rfl
@[simp] theorem State.takeInput_pending : (s.takeInput rest).pending = rest := rfl
@[simp] theorem State.takeInput_responses : (s.takeInput rest).responses = s.responses := rfl

@[simp] theorem State.resetEngine_engine : s.resetEngine.engine = Engine.reset := rfl
@[simp] theorem State.resetEngine_pending : s.resetEngine.pending = s.pending := rfl
@[simp] theorem State.resetEngine_responses : s.resetEngine.responses = s.responses := rfl

end Sys2Proof.Machine
end

