-- ==== Sys2Proof/Laws/Ops.lean ====
section
/-! SUPPORT. For each shared operation, what it can do: the response of a command, reading a data register, and
the inversion of `exec` and of `step`. -/

namespace Sys2Proof.Machine

/-! ## Responses (30_encoding.md R85, 60_exceptions.md R232) -/

@[simp] theorem respond_ok (opc : Byte) (r : List Word) :
    respond opc .ok r = { status := statusWord r.length opc .ok, result := r } := rfl

theorem respond_error (opc : Byte) {c : Code} (h : c ≠ .ok) (r : List Word) :
    respond opc c r = { status := statusWord 0 opc c, result := [] } := by
  cases c <;> first | rfl | exact absurd rfl h

theorem Code.toByte_inj {c d : Code} (h : c.toByte = d.toByte) : c = d := by
  cases c <;> cases d <;> first | rfl | exact absurd h (by decide)

theorem Code.mem_all (c : Code) : c ∈ Code.all := by cases c <;> decide

theorem Code.ok_or_error (c : Code) :
    c = .ok ∨ (c ≠ .ok ∧ (c.isInputError = true ∧ c.isCommandFault = false
      ∨ c.isInputError = false ∧ c.isCommandFault = true)) := by
  cases c <;> decide

/-! ## Reading a data register (60_exceptions.md R240) -/

section
variable {α : Type} (op : Opcode) (s : State) (body : α → Host.Outcome State Fault Refusal)

@[simp] theorem withOperand_none :
    withOperand none op s body = .next (s.raise op.toByte .operandNotWritten) := rfl

@[simp] theorem withOperand_some (v : α) : withOperand (some v) op s body = body v := rfl

end

/-! ## What a command can do -/

/-- How a command may change the data registers: not at all, or one whole register by one of the commands that
R23 lets write it. OUT is written only while STATE has a value. -/
inductive DataEffect (i : Instr) (e : Engine) : Engine → Prop where
  | none : DataEffect i e e
  | state (b : Words16) (h : i.opcode = .build ∨ i.opcode = .ldstate) : DataEffect i e (e.writeState b)
  | out (b : Words16) (h : i.opcode = .block) (hs : e.state.isSome = true) : DataEffect i e (e.writeOut b)
  | ks (k : KeyBytes) (h : i.opcode = .serial ∨ i.opcode = .ldks) : DataEffect i e (e.writeKs k)

/-- Every command, on every state, either completes with a data effect of its own, or raises a code other than
0x00 over the engine it began with. It never faults and never refuses. -/
theorem exec_cases (i : Instr) (s : State) :
    (∃ e r, DataEffect i s.engine e ∧ exec i s = .next (s.complete e i.opcode r))
      ∨ ∃ c, c ≠ Code.ok ∧ exec i s = .next (s.raise i.opcode.toByte c) := by
  cases i with
  | add32 a b => exact .inl ⟨_, _, .none, rfl⟩
  | xor32 a b => exact .inl ⟨_, _, .none, rfl⟩
  | rotl32 n a =>
    by_cases h : n = 0
    · exact .inr ⟨.invalidRotateAmount, by decide, by simp [exec, execRotl32, h, Instr.opcode]⟩
    · exact .inl ⟨_, _, .none, by simp only [exec, execRotl32, h, if_false]; rfl⟩
  | qr a b c d => exact .inl ⟨_, _, .none, rfl⟩
  | build counter key nonce =>
    by_cases hk : key.length = 32
    · by_cases hn : nonce.length = 12
      · exact .inl ⟨_, _, .state _ (.inl rfl), by
          simp only [exec, execBuild, buildState, hk, hn, ne_eq, not_true_eq_false, if_false]; rfl⟩
      · exact .inr ⟨.invalidNonceLength, by decide, by
          simp [exec, execBuild, buildState, hk, hn, Instr.opcode]⟩
    · exact .inr ⟨.invalidKeyLength, by decide, by simp [exec, execBuild, buildState, hk, Instr.opcode]⟩
  | ldstate b => exact .inl ⟨_, _, .state _ (.inr rfl), rfl⟩
  | rdstate =>
    cases h : s.engine.state with
    | none => exact .inr ⟨.operandNotWritten, by decide, by simp [exec, execRdstate, h, Instr.opcode]⟩
    | some b => exact .inl ⟨_, _, .none, by simp only [exec, execRdstate, h, withOperand_some]; rfl⟩
  | block t =>
    cases h : s.engine.state with
    | none => exact .inr ⟨.operandNotWritten, by decide, by simp [exec, execBlock, h, Instr.opcode]⟩
    | some b =>
      cases t
      · exact .inl ⟨_, _, .out _ rfl (by simp [h]), by simp only [exec, execBlock, h, withOperand_some]; rfl⟩
      · exact .inl ⟨_, _, .out _ rfl (by simp [h]), by simp only [exec, execBlock, h, withOperand_some]; rfl⟩
  | rdout =>
    cases h : s.engine.out with
    | none => exact .inr ⟨.operandNotWritten, by decide, by simp [exec, execRdout, h, Instr.opcode]⟩
    | some b => exact .inl ⟨_, _, .none, by simp only [exec, execRdout, h, withOperand_some]; rfl⟩
  | serial =>
    cases h : s.engine.out with
    | none => exact .inr ⟨.operandNotWritten, by decide, by simp [exec, execSerial, h, Instr.opcode]⟩
    | some b =>
      exact .inl ⟨_, _, .ks _ (.inl rfl), by simp only [exec, execSerial, h, withOperand_some]; rfl⟩
  | ldks k => exact .inl ⟨_, _, .ks _ (.inr rfl), rfl⟩
  | rdks =>
    cases h : s.engine.ks with
    | none => exact .inr ⟨.operandNotWritten, by decide, by simp [exec, execRdks, h, Instr.opcode]⟩
    | some b => exact .inl ⟨_, _, .none, by simp only [exec, execRdks, h, withOperand_some]; rfl⟩
  | xors kslen w data =>
    simp only [exec, execXors]
    split
    · exact .inr ⟨.fieldOutOfRange, by decide, rfl⟩
    · split
      · exact .inr ⟨.invalidKeystreamLength, by decide, rfl⟩
      · cases h : s.engine.ks with
        | none => exact .inr ⟨.operandNotWritten, by decide, by simp [Instr.opcode]⟩
        | some k =>
          simp only [withOperand_some]
          split
          · exact .inr ⟨.dataExceedsKeystream, by decide, rfl⟩
          · simp only [xorStream]
            split
            · rename_i c hx
              split at hx
              · cases hx
                exact .inr ⟨.invalidKeystreamLength, by decide, rfl⟩
              · cases hx
            · exact .inl ⟨_, _, .none, rfl⟩
  | rdstatus => exact .inl ⟨_, _, .none, rfl⟩

/-! ## What a step can do -/

/-- A packet either is refused by the decoder with its code, or decodes and is performed (R86). -/
theorem runPacket_cases (p : Packet) (s : State) :
    (∃ c, decode p = .error c ∧ runPacket p s = .next (s.raise (opcField p.header) c))
      ∨ ∃ i, decode p = .ok i ∧ runPacket p s = exec i s := by
  unfold runPacket
  cases h : decode p with
  | error c => exact .inl ⟨c, rfl, rfl⟩
  | ok i => exact .inr ⟨i, rfl, rfl⟩

@[simp] theorem step_idle {s : State} (h : s.pending = []) : step s = .next s := by
  simp [step, stepPort, h]

@[simp] theorem step_packet {s : State} {p : Packet} {rest : List HostInput}
    (h : s.pending = .packet p :: rest) : step s = runPacket p (s.takeInput rest) := by
  simp [step, stepPort, h, acceptInput]

@[simp] theorem step_reset {s : State} {rest : List HostInput} (h : s.pending = .reset :: rest) :
    step s = .next (s.takeInput rest).resetEngine := by
  simp [step, stepPort, h, acceptInput]

/-- A step that answers a next state is idle, takes the reset input, or runs a packet. -/
theorem step_next_cases {s t : State} (h : step s = .next t) :
    (s.pending = [] ∧ t = s)
      ∨ (∃ rest, s.pending = .reset :: rest ∧ t = (s.takeInput rest).resetEngine)
      ∨ ∃ p rest, s.pending = .packet p :: rest ∧ runPacket p (s.takeInput rest) = .next t := by
  simp only [step, stepPort] at h
  split at h
  · exact .inl ⟨‹_›, by cases h; rfl⟩
  · rename_i x rest hp
    cases x with
    | packet p => exact .inr (.inr ⟨p, rest, hp, h⟩)
    | reset => exact .inr (.inl ⟨rest, hp, by cases h; rfl⟩)
    | resetDuring p => cases h
    | secondHost p => cases h

end Sys2Proof.Machine
end

