-- ==== Sys2Proof/Laws/Packets.lean ====
section
/-! SUPPORT. The machine's own endings of a command are those of Safety.lean, which are written from the spec's
tables (30_encoding.md R85, 60_exceptions.md R232, R234). -/

namespace Sys2Proof

open Machine

/-- A step on one packet is that packet run on the state. -/
theorem onPacket_eq_runPacket (s : State) (h : Word) (p : List Word) :
    onPacket s h p = runPacket { header := h, payload := p } s := by
  simp [onPacket, step, stepPort, acceptInput, State.takeInput]

theorem completes_complete (s : State) (e : Engine) (op : Opcode) (r : List Word) :
    Completes (.next (s.complete e op r)) s e op.toByte r := by
  simp [Completes, Answers, State.complete, State.finish, statusWord, Engine.record, Code.isInputError,
    Code.isCommandFault, Code.toByte]

theorem endsInFault_raise (s : State) (opc : Byte) {c : Code} (h : c.isCommandFault = true) :
    EndsInFault (.next (s.raise opc c)) s opc c.toByte := by
  cases c <;> first
    | exact absurd h (by decide)
    | simp [EndsInFault, Answers, State.raise, State.finish, respond, statusWord, Engine.record,
        Code.isInputError, Code.isCommandFault, Code.toByte]

theorem endsInError_raise (s : State) (opc : Byte) {c : Code} (h : c.isInputError = true) :
    EndsInError (.next (s.raise opc c)) s opc c.toByte := by
  cases c <;> first
    | exact absurd h (by decide)
    | simp [EndsInError, Answers, State.raise, State.finish, respond, statusWord, Engine.record,
        Code.isInputError, Code.isCommandFault, Code.toByte]

end Sys2Proof
end

