-- ==== Sys2Proof/Laws/PerInstr.lean ====
section
/-! SUPPORT. Statements about every command as syntax, one lemma per constructor.

`Header`: the encoder writes the command's own OPC (30_encoding.md R81) and leaves every bit its format does
not assign 0 (R86, R88). `Length`: the payload of an encodable command has the plen(H) words its header
announces (R84). -/

namespace Sys2Proof

open Machine

/-- The OPC field of the header is the command's, and no reserved bit is set. -/
def Laws.Header.Statement (i : Instr) : Prop :=
  opcField (encodeHeader i) = i.opcode.toByte ∧ encodeHeader i &&& i.opcode.format.rsvdMask = 0

/-- An encodable command's payload has exactly plen(H) words. -/
def Laws.Length.Statement (i : Instr) : Prop :=
  i.wellFormed = true → (encodePayload i).length = plenOf i.opcode (encodeHeader i)

/-- A word whose bits outside a mask's zeros are zero. -/
theorem and_mask_eq_zero {x m : Word} (h : ∀ i, i < 32 → m.getLsbD i = true → x.getLsbD i = false) :
    x &&& m = 0 := by
  refine BitVec.eq_of_getLsbD_eq fun i hi => ?_
  rw [BitVec.getLsbD_and]
  cases hm : m.getLsbD i
  · simp
  · simp [h i hi hm]

/-- The header of a format with no fields has no reserved bit set. -/
theorem f0_reserved : ∀ op : Opcode, (0#24 ++ op.toByte : BitVec 32) &&& Format.f0.rsvdMask = 0 := by
  intro op; cases op <;> decide

/-- The header of ROTL32 has no reserved bit set. -/
theorem rotl32_reserved : ∀ n : BitVec 5,
    (0#19 ++ n ++ Opcode.rotl32.toByte : BitVec 32) &&& Format.fr.rsvdMask = 0 := by decide

theorem Laws.Header.add32 (a b : Word) : Laws.Header.Statement (.add32 a b) :=
  ⟨opcField_append _ _, f0_reserved .add32⟩
theorem Laws.Header.xor32 (a b : Word) : Laws.Header.Statement (.xor32 a b) :=
  ⟨opcField_append _ _, f0_reserved .xor32⟩
theorem Laws.Header.rotl32 (n : BitVec 5) (a : Word) : Laws.Header.Statement (.rotl32 n a) :=
  ⟨opcField_append _ _, rotl32_reserved n⟩
theorem Laws.Header.qr (a b c d : Word) : Laws.Header.Statement (.qr a b c d) :=
  ⟨opcField_append _ _, f0_reserved .qr⟩
theorem Laws.Header.build (counter : Word) (key nonce : List Byte) :
    Laws.Header.Statement (.build counter key nonce) := by
  refine ⟨opcField_append _ _, and_mask_eq_zero fun i hi hm => ?_⟩
  have h24 : 24 ≤ i := by
    by_contra hlt
    have : ∀ j : Fin 24, (0xFF000000#32).getLsbD j.val = false := by decide
    have := this ⟨i, by omega⟩
    simp_all [Instr.opcode, Opcode.format, Format.rsvdMask]
  refine (append_bit_hi rfl _ _ i (by omega)).trans ((append_bit_hi rfl _ _ _ (by omega)).trans
    ((append_bit_hi rfl _ _ _ (by omega)).trans ?_))
  simp
theorem Laws.Header.ldstate (s : Words16) : Laws.Header.Statement (.ldstate s) :=
  ⟨opcField_append _ _, f0_reserved .ldstate⟩
theorem Laws.Header.rdstate : Laws.Header.Statement .rdstate := ⟨opcField_append _ _, f0_reserved .rdstate⟩
theorem Laws.Header.block (t : Bool) : Laws.Header.Statement (.block t) :=
  ⟨opcField_append _ _, by cases t <;> decide⟩
theorem Laws.Header.rdout : Laws.Header.Statement .rdout := ⟨opcField_append _ _, f0_reserved .rdout⟩
theorem Laws.Header.serial : Laws.Header.Statement .serial := ⟨opcField_append _ _, f0_reserved .serial⟩
theorem Laws.Header.ldks (ks : KeyBytes) : Laws.Header.Statement (.ldks ks) :=
  ⟨opcField_append _ _, f0_reserved .ldks⟩
theorem Laws.Header.rdks : Laws.Header.Statement .rdks := ⟨opcField_append _ _, f0_reserved .rdks⟩
theorem Laws.Header.xors (kslen : BitVec 7) (w : Bool) (data : List Byte) :
    Laws.Header.Statement (.xors kslen w data) :=
  ⟨opcField_append _ _, BitVec.and_zero⟩
theorem Laws.Header.rdstatus : Laws.Header.Statement .rdstatus := ⟨opcField_append _ _, f0_reserved .rdstatus⟩

theorem Laws.Length.add32 (a b : Word) : Laws.Length.Statement (.add32 a b) := fun _ => rfl
theorem Laws.Length.xor32 (a b : Word) : Laws.Length.Statement (.xor32 a b) := fun _ => rfl
theorem Laws.Length.rotl32 (n : BitVec 5) (a : Word) : Laws.Length.Statement (.rotl32 n a) := fun _ => rfl
theorem Laws.Length.qr (a b c d : Word) : Laws.Length.Statement (.qr a b c d) := fun _ => rfl
theorem Laws.Length.build (counter : Word) (key nonce : List Byte) :
    Laws.Length.Statement (.build counter key nonce) := by
  intro h
  simp only [Instr.wellFormed, Bool.and_eq_true, decide_eq_true_eq] at h
  simp only [encodePayload, List.length_cons, List.length_append, pack_length, plenOf, Instr.opcode,
    encodeHeader, klenField_append, nlenField_append, BitVec.toNat_ofNat]
  rw [Nat.mod_eq_of_lt (by omega), Nat.mod_eq_of_lt (by omega)]
  omega
theorem Laws.Length.ldstate (s : Words16) : Laws.Length.Statement (.ldstate s) := fun _ => s.length_toList
theorem Laws.Length.rdstate : Laws.Length.Statement .rdstate := fun _ => rfl
theorem Laws.Length.block (t : Bool) : Laws.Length.Statement (.block t) := fun _ => rfl
theorem Laws.Length.rdout : Laws.Length.Statement .rdout := fun _ => rfl
theorem Laws.Length.serial : Laws.Length.Statement .serial := fun _ => rfl
theorem Laws.Length.ldks (ks : KeyBytes) : Laws.Length.Statement (.ldks ks) := by
  intro _
  simp [encodePayload, pack_length, plenOf, Instr.opcode, wordCount]
theorem Laws.Length.rdks : Laws.Length.Statement .rdks := fun _ => rfl
theorem Laws.Length.xors (kslen : BitVec 7) (w : Bool) (data : List Byte) :
    Laws.Length.Statement (.xors kslen w data) := by
  intro h
  simp only [Instr.wellFormed, decide_eq_true_eq] at h
  simp only [encodePayload, pack_length, plenOf, Instr.opcode, encodeHeader, dlenField_append,
    BitVec.toNat_ofNat]
  rw [Nat.mod_eq_of_lt (by omega)]
theorem Laws.Length.rdstatus : Laws.Length.Statement .rdstatus := fun _ => rfl

end Sys2Proof
end

