-- ==== Sys2Proof/Tests/Slice0.lean ====
section
/-! SUPPORT. The model's own tests: ill-formed commands, decoding of words written out from the spec, one or two
steps per command with results of 95_test_vectors.md, and for each statement with hypotheses a concrete case
that meets them. -/

namespace Sys2Proof.Tests

open Sys2Proof Sys2Proof.Machine

/-! ## Small states and what a packet does to them -/

/-- The response to one packet sent to an engine. -/
def answer (e : Engine) (h : Word) (p : List Word) : Option Response :=
  match onPacket { engine := e, pending := [], responses := [] } h p with
  | .next t => t.responses.head?
  | .fault _ => none
  | .refused _ => none

/-- The engine after one packet. -/
def engineAfter (e : Engine) (h : Word) (p : List Word) : Option Engine :=
  match onPacket { engine := e, pending := [], responses := [] } h p with
  | .next t => some t.engine
  | .fault _ => none
  | .refused _ => none

/-- The known-answer State of E4. -/
def e4State : Words16 :=
  #v[0x61707865, 0x3320646e, 0x79622d32, 0x6b206574, 0x03020100, 0x07060504, 0x0b0a0908, 0x0f0e0d0c,
     0x13121110, 0x17161514, 0x1b1a1918, 0x1f1e1d1c, 0x00000001, 0x09000000, 0x4a000000, 0x00000000]

/-- The known-answer output of E4. -/
def e4Out : Words16 :=
  #v[0xe4e7f110, 0x15593bd1, 0x1fdd0f50, 0xc47120a3, 0xc7f4d1c7, 0x0368c033, 0x9aaa2204, 0x4e6cd4c3,
     0x466482d2, 0x09aa9f07, 0x05d7c214, 0xa2028bd9, 0xd19c12b5, 0xb94e16de, 0xe883d0cb, 0x4e3c50a2]

/-- Reset, with STATE written. -/
def withState (b : Words16) : Engine := { Engine.reset with state := some b }

/-- Reset, with STATE, OUT and KS as after BUILD, BLOCK and SERIAL of E4. -/
def e4Engine : Engine := { Engine.reset with state := some e4State, out := some e4Out, ks := some (serializeLe e4Out) }

/-- KS of V-KS-11: aa 55 0f, then 61 zero bytes. -/
def ks11 : KeyBytes := (Vector.replicate 64 0).set 0 0xaa |>.set 1 0x55 |>.set 2 0x0f

/-- A state with nothing pending and no response. -/
def st (e : Engine) : State := { engine := e, pending := [], responses := [] }

/-! ## Well-formedness refuses what does not fit its field -/

theorem test_illFormed_key : (Instr.build 1 (List.replicate 256 0) []).wellFormed = false := by decide +kernel
theorem test_illFormed_nonce : (Instr.build 1 [] (List.replicate 256 0)).wellFormed = false := by decide +kernel
theorem test_illFormed_data : (Instr.xors 64 false (List.replicate 65536 0)).wellFormed = false := by
  simp only [Instr.wellFormed, List.length_replicate]; decide
theorem test_wellFormed_bounds : (Instr.build 1 (List.replicate 255 0) (List.replicate 255 0)).wellFormed = true := by
  decide +kernel

/-! ## Decoding: for every command a word written out from R82, R84 and R87 -/

theorem test_decode_add32 : decode ⟨0x00000001, [0xffffffff, 1]⟩ = .ok (.add32 0xffffffff 1) := by decide
theorem test_decode_xor32 : decode ⟨0x00000002, [0xffffffff, 0x0f0f0f0f]⟩ = .ok (.xor32 0xffffffff 0x0f0f0f0f) := by
  decide
/-- N = 31: 0b11111 in bits 12..8. -/
theorem test_decode_rotl32 : decode ⟨0b0000000000000000000_11111_00000011, [1]⟩ = .ok (.rotl32 31 1) := by decide
theorem test_decode_qr : decode ⟨0x00000004, [1, 2, 3, 4]⟩ = .ok (.qr 1 2 3 4) := by decide
/-- NLEN = 1 in bits 23..16, KLEN = 5 in bits 15..8; the padding bytes ff are ignored. -/
theorem test_decode_build :
    decode ⟨0b00000000_00000001_00000101_00010000, [7, 0x04030201, 0xffffff05, 0xffffff09]⟩
      = .ok (.build 7 [1, 2, 3, 4, 5] [9]) := by decide
theorem test_decode_ldstate : decode ⟨0x00000011, e4State.toList⟩ = .ok (.ldstate e4State) := by decide
theorem test_decode_rdstate : decode ⟨0x00000012, []⟩ = .ok .rdstate := by decide
/-- T in bit 8. -/
theorem test_decode_block :
    decode ⟨0b00000000000000000000000_1_00100000, []⟩ = .ok (.block true)
      ∧ decode ⟨0x00000020, []⟩ = .ok (.block false) := by decide
theorem test_decode_rdout : decode ⟨0x00000021, []⟩ = .ok .rdout := by decide
theorem test_decode_serial : decode ⟨0x00000030, []⟩ = .ok .serial := by decide
theorem test_decode_ldks :
    decode ⟨0x00000031, 0x000f55aa :: List.replicate 15 0⟩ = .ok (.ldks ks11) := by decide +kernel
theorem test_decode_rdks : decode ⟨0x00000032, []⟩ = .ok .rdks := by decide
/-- DLEN = 5 in bits 31..16, W = 1 in bit 15, KSLEN = 3 in bits 14..8. -/
theorem test_decode_xors :
    decode ⟨0b0000000000000101_1_0000011_00110011, [0x44332211, 0xffffff55]⟩
      = .ok (.xors 3 true [0x11, 0x22, 0x33, 0x44, 0x55]) := by decide
theorem test_decode_rdstatus : decode ⟨0x0000003F, []⟩ = .ok .rdstatus := by decide

/-- The decoder refuses with R86's codes in R86's order (V-CTL-4, 5, 8, 9, 10, V-WORD-21, V-QR-6). -/
theorem test_decode_refuses :
    decode ⟨0x00000000, []⟩ = .error .illegalOpcode
      ∧ decode ⟨0x000000ff, []⟩ = .error .illegalOpcode
      ∧ decode ⟨0xffffff05, []⟩ = .error .illegalOpcode
      ∧ decode ⟨0x00002103, [1]⟩ = .error .reservedFieldNonzero
      ∧ decode ⟨0x00000003, [1, 2]⟩ = .error .invalidRotateAmount
      ∧ decode ⟨0x00044133, []⟩ = .error .fieldOutOfRange
      ∧ decode ⟨0x00000004, [1, 2, 3]⟩ = .error .malformedPacket := by decide

/-- The table word of each row decodes to the row's command. -/
theorem test_tableWord :
    decodeTableWord 32 0x00000001 = some (.add32 0 0) ∧ decodeTableWord 32 0x00000103 = some (.rotl32 1 0)
      ∧ decodeTableWord 32 0x00000120 = some (.block true) ∧ decodeTableWord 32 0x00000033 = some (.xors 0 false [])
      ∧ decodeTableWord 64 0x0000000700000103 = some (.rotl32 1 7) ∧ decodeTableWord 32 0x00000005 = none := by
  decide

/-! ## Steps, with the results of 95_test_vectors.md -/

/-- V-WORD-1, V-WORD-3. -/
theorem test_add32 :
    answer .reset 0x00000001 [0xffffffff, 1] = some ⟨0x00010100, [0]⟩
      ∧ answer .reset 0x00000001 [0x12345678, 0x9abcdef0] = some ⟨0x00010100, [0xacf13568]⟩ := by decide
/-- V-WORD-7. -/
theorem test_xor32 : answer .reset 0x00000002 [0xffffffff, 0x0f0f0f0f] = some ⟨0x00010200, [0xf0f0f0f0]⟩ := by decide
/-- V-WORD-12, V-WORD-16. -/
theorem test_rotl32 :
    answer .reset 0x00001f03 [0x80000001] = some ⟨0x00010300, [0xc0000000]⟩
      ∧ answer .reset 0x00000703 [0x12345678] = some ⟨0x00010300, [0x1a2b3c09]⟩ := by decide
/-- V-WORD-20. -/
theorem test_rotl32_zero : answer .reset 0x00000003 [0x80000000] = some ⟨0x00000382, []⟩ := by decide
/-- V-QR-1, V-QR-3. -/
theorem test_qr :
    answer .reset 0x00000004 [0x11111111, 0x01020304, 0x9b8d6f43, 0x01234567]
        = some ⟨0x00040400, [0xea2a92f4, 0xcb1cf8ce, 0x4581472e, 0x5881c4bb]⟩
      ∧ answer .reset 0x00000004 [0xffffffff, 0xffffffff, 0xffffffff, 0xffffffff]
        = some ⟨0x00040400, [0xf0000ffd, 0x88790878, 0x0110fdef, 0x010ffdf0]⟩ := by decide
/-- V-BLD-1. -/
theorem test_build :
    answer .reset 0x000c2010
        [0x00000001, 0x03020100, 0x07060504, 0x0b0a0908, 0x0f0e0d0c, 0x13121110, 0x17161514, 0x1b1a1918,
         0x1f1e1d1c, 0x09000000, 0x4a000000, 0x00000000]
      = some ⟨0x00101000, e4State.toList⟩ := by decide +kernel
/-- E3: both lengths wrong, the key first; V-BLD-6 and V-BLD-7. -/
theorem test_build_refused :
    answer .reset 0x000d2110 (List.replicate 14 0) = some ⟨0x00001001, []⟩
      ∧ answer .reset 0x000b2010 (List.replicate 12 0) = some ⟨0x00001002, []⟩
      ∧ answer .reset 0x010c2010 (List.replicate 12 0) = some ⟨0x00001081, []⟩
      ∧ answer .reset 0x000c2010 (List.replicate 11 0) = some ⟨0x00001084, []⟩ := by decide +kernel
/-- V-BLD-9, V-BLD-12. -/
theorem test_ldstate :
    answer .reset 0x00000011 (List.replicate 16 0) = some ⟨0x00001100, []⟩
      ∧ answer .reset 0x00000011 (List.replicate 15 0) = some ⟨0x00001184, []⟩ := by decide
/-- V-BLD-10, V-BLD-11. -/
theorem test_rdstate :
    answer .reset 0x00000012 [] = some ⟨0x00001283, []⟩
      ∧ answer (withState e4State) 0x00000012 [] = some ⟨0x00101200, e4State.toList⟩ := by decide
/-- V-BLK-1, and E6: STATE is not changed. -/
theorem test_block :
    engineAfter (withState e4State) 0x00000020 []
      = some { Engine.reset with state := some e4State, out := some e4Out, lastOpc := 0x20 } := by decide +kernel
/-- V-BLK-6: the length of the traced response, and the first words of records 2, 15 and 171. -/
theorem test_blockT :
    (answer (withState e4State) 0x00000120 []).map (fun r =>
        [r.status, (r.result.drop 50).headD 0, (r.result.drop 51).headD 0, (r.result.drop 271).headD 0,
          (r.result.drop 272).headD 0, (r.result.drop 2923).headD 0, (r.result.drop 2924).headD 0]
          ++ r.result.drop 2940)
      = some ([0x0b8c2000, 0x00c84028, 0xabbaa25c, 0x00e94319, 0xcd52e917, 0x00000033, 0x61707865]
          ++ e4Out.toList) := by decide +kernel
/-- V-BLK-10, V-BLK-11. -/
theorem test_rdout :
    answer .reset 0x00000021 [] = some ⟨0x00002183, []⟩
      ∧ answer e4Engine 0x00000021 [] = some ⟨0x00102100, e4Out.toList⟩ := by decide
/-- V-KS-1: the words of OUT, and E4's first and last keystream bytes. -/
theorem test_serial :
    answer { e4Engine with ks := none } 0x00000030 [] = some ⟨0x00103000, e4Out.toList⟩
      ∧ ((engineAfter { e4Engine with ks := none } 0x00000030 []).bind fun e => e.ks).map
          (fun k => (k.toList.take 5, k.toList.drop 62)) = some ([0x10, 0xf1, 0xe7, 0xe4, 0xd1], [0x3c, 0x4e]) := by
  decide +kernel
/-- V-KS-4, V-KS-5. -/
theorem test_ldks_rdks :
    ((engineAfter .reset 0x00000031 (List.replicate 15 0x07060504 ++ [0x3f3e3d3c])).bind fun e => e.ks).map
        (fun k => k.toList.drop 58) = some [6, 7, 0x3c, 0x3d, 0x3e, 0x3f]
      ∧ answer { Engine.reset with ks := some ks11 } 0x00000032 []
        = some ⟨0x00103200, 0x000f55aa :: List.replicate 15 0⟩ := by decide +kernel
/-- V-KS-8 and V-KS-11: padding ignored and sent as 0; the wrap of W = 1. -/
theorem test_xors :
    answer e4Engine 0x00050533 [0x44332211, 0xffffff55] = some ⟨0x00023300, [0xa0d4d301, 0x00000084]⟩
      ∧ answer { Engine.reset with ks := some ks11 } 0x000a8333 [0x03020100, 0x07060504, 0x00000908]
        = some ⟨0x00033300, [0xa90d54aa, 0x52ac0a51, 0x0000a307]⟩ := by decide +kernel
/-- V-KS-10, 13, 14, 15, 16. -/
theorem test_xors_refused :
    answer e4Engine 0x00050133 [0, 0] = some ⟨0x00003304, []⟩
      ∧ answer .reset 0x00000033 [] = some ⟨0x00003303, []⟩
      ∧ answer .reset 0x00030333 [0x00636261] = some ⟨0x00003383, []⟩
      ∧ answer e4Engine 0x00004133 [] = some ⟨0x00003385, []⟩
      ∧ answer e4Engine 0x00004033 [] = some ⟨0x00003300, []⟩ := by decide +kernel
/-- V-CTL-1, and V-CTL-7 with its STATUS after. -/
theorem test_rdstatus :
    answer .reset 0x0000003f [] = some ⟨0x00013f00, [0]⟩
      ∧ answer { e4Engine with lastCode := 0x81, lastOpc := 0x3f, stickyErr := true, stickyFault := true } 0x0000003f []
        = some ⟨0x00013f00, [0x001f3f81]⟩
      ∧ (engineAfter { e4Engine with lastCode := 0x81, lastOpc := 0x3f, stickyErr := true, stickyFault := true }
          0x0000003f []).map Engine.status = some 0x001f3f00 := by decide
/-- V-CTL-4: an illegal opcode is answered, with its OPC as received. -/
theorem test_illegalOpcode :
    answer .reset 0x000000ff [] = some ⟨0x0000ff80, []⟩
      ∧ (engineAfter .reset 0x000000ff []).map Engine.status = some 0x0002ff80 := by decide

/-- The host's table word runs as the first command after reset: BLOCK ends with 0x83, as V-BLK-7. -/
theorem test_withFetchWord :
    step (State.reset.withFetchWord 32 0x00000020)
      = .next { engine := { Engine.reset with lastCode := 0x83, lastOpc := 0x20, stickyFault := true }
                pending := [], responses := [⟨0x00002083, []⟩] } := by rfl

/-- The assembler refuses what R90 says it refuses: a rotate amount of 32, 63 bytes for LDKS, an unknown word. -/
theorem test_assembler_refuses :
    lineCommand "ROTL32 1, #32".toList = none ∧ lineCommand "LDKS h\"00\"".toList = none
      ∧ lineCommand "NOP".toList = none ∧ lineCommand "ADD32 0x100000000, 1".toList = none := by decide
/-- R90's lines assemble; the key of 2 bytes too, which the engine will reject. -/
theorem test_assembler_lines :
    assembleLine "ADD32    0xFFFFFFFF, 1   ; wraps".toList = some ⟨0x00000001, [0xffffffff, 1]⟩
      ∧ assembleLine "BUILD    key=h\"0aff\", ctr=7, nonce=h\"09\"".toList = some ⟨0x00010210, [7, 0x0000ff0a, 9]⟩
      ∧ assembleLine "XORS.W   #3, data=h\"00\"".toList = some ⟨0x00018333, [0]⟩ := by decide +kernel

/-- R92: the lines of the pseudo-instructions; ENCRYPT of 65 bytes has no expansion, ENCRYPTN of 65 has two chunks. -/
theorem test_pseudo_lines :
    assemblePseudoLine "KEYSTREAM key=h\"09\", ctr=7, nonce=h\"\"".toList
        = some [⟨0x00000110, [7, 9]⟩, ⟨0x00000020, []⟩, ⟨0x00000030, []⟩]
      ∧ (assemblePseudoLine "DECRYPT key=h\"09\", ctr=7, nonce=h\"\", data=h\"0102\"".toList).map (fun ps => ps.drop 3)
        = some [⟨0x00024033, [0x00000201]⟩]
      ∧ (Pseudo.encrypt [] 0 [] (List.replicate 65 0)).expand = none
      ∧ ((Pseudo.encryptN [] 0 [] (List.replicate 65 0)).expand.map List.length) = some 8 := by decide +kernel

/-! ## Witnesses: each statement's hypotheses are met -/

/-- Xor32IsBitwise, Rotl32MovesBits: the highest bit. -/
theorem witness_bit_index : 31 < 32 := by decide
/-- Rotate amounts at both ends of the range (Rotl32MovesBits, Rotl32Laws). -/
theorem witness_rotate_amounts : (0 < 1 ∧ 1 < 32) ∧ (0 < 31 ∧ 31 < 32) := by decide
/-- QuarterRoundInPlace: distinct indices, and a word outside them. -/
theorem witness_QuarterRoundInPlace :
    ([0, 5, 10, 15] : List (Fin 16)).Nodup ∧ (1 : Fin 16) ∉ ([0, 5, 10, 15] : List (Fin 16)) := by decide
/-- PhaseOrderDoesNotMatter: the groups of each phase in another order. -/
theorem witness_PhaseOrderDoesNotMatter :
    columnGroups.reverse.Perm columnGroups ∧ diagonalGroups.reverse.Perm diagonalGroups :=
  ⟨List.reverse_perm _, List.reverse_perm _⟩
/-- BlockIsTenDoubleRoundsPlusInput: the last word index. -/
theorem witness_word_index : 15 < 16 := by decide
/-- TraceRecordsInOrder, TraceSnapshotsAgree: the last group of the last phase of the last double-round, the m below
it, and the last double-round with one after it. -/
theorem witness_trace_indices :
    (9 < 10 ∧ 1 < 2 ∧ 3 < 4) ∧ (9 < 10 ∧ 6 < 8 ∧ 6 < 7) ∧ (8 < 10 ∧ 7 < 8 ∧ 8 < 9) := by decide
/-- TraceEncodingIsTheTable: the first record of a trace, and the last one, which has the size of its own. -/
theorem witness_TraceEncodingIsTheTable :
    (blockTraced e4State).2[0]? = some ⟨.state, none, some e4State, none⟩
      ∧ ((blockTraced e4State).2[171]?.map fun r => r.encode.length) = some 33 := by decide +kernel
/-- LittleEndianWords: a string that holds exactly word 0. -/
theorem witness_LittleEndianWords : 4 * 0 + 3 < ([1, 2, 3, 4] : List Byte).length := by decide
/-- PackAndUnpack: the last word of a padded string, and the last byte of two words. -/
theorem witness_PackAndUnpack : 1 < (5 + 3) / 4 ∧ 7 < 8 ∧ 7 / 4 < ([1, 2] : List Word).length := by decide
/-- BuildStateLaysOut, BuildCompletes, RefusedOperandValues: each clause's lengths, next to the right ones. -/
theorem witness_build_lengths :
    (List.replicate 31 (0 : Byte)).length ≠ 32
      ∧ ((List.replicate 32 (0 : Byte)).length = 32 ∧ (List.replicate 13 (0 : Byte)).length ≠ 12)
      ∧ ((List.replicate 32 (0 : Byte)).length = 32 ∧ (List.replicate 12 (0 : Byte)).length = 12) := by decide
/-- SerializeThenPack, SerialCompletes, ReadsComplete, BlockCompletes, XorsCompletes, AssemblerExamples: a state whose three registers have values. -/
theorem witness_written_registers :
    (st e4Engine).engine.state = some e4State ∧ (st e4Engine).engine.out = some e4Out
      ∧ (st e4Engine).engine.ks = some (serializeLe e4Out) := ⟨rfl, rfl, rfl⟩
/-- SerializeThenPack, SerialPackets, LoadPackets, and the data bytes of XorsPackets: the last byte of the last word. -/
theorem witness_byte_index : 15 < 16 ∧ 3 < 4 := by decide
/-- XorStreamIsAnInvolution: a keystream of one byte and data beyond it. -/
theorem witness_XorStreamIsAnInvolution : 0 < ([0x10] : List Byte).length ∧ 4 < (List.replicate 5 (0 : Byte)).length := by
  decide
/-- DecodeEncode: a command at the end of its length fields. -/
theorem witness_DecodeEncode : (Instr.build 1 (List.replicate 255 7) []).wellFormed = true := by decide +kernel
/-- EncodeDecode: a BUILD and an XORS with padding whose last counted bytes are reached, and a command with no byte
string. -/
theorem witness_EncodeDecode :
    (decode ⟨0x00010110, [1, 0xffffff08, 0xffffff09]⟩ = .ok (.build 1 [8] [9])
        ∧ (Instr.build 1 [8] [9]).opcode = .build ∧ 0 < (klenField 0x00010110).toNat
        ∧ 0 < (nlenField 0x00010110).toNat)
      ∧ (decode ⟨0x00050133, [0, 0xffffff07]⟩ = .ok (.xors 1 false [0, 0, 0, 0, 7])
        ∧ (Instr.xors 1 false [0, 0, 0, 0, 7]).opcode = .xors ∧ 4 < (dlenField 0x00050133).toNat)
      ∧ (decode ⟨0x00000103, [1]⟩ = .ok (.rotl32 1 1) ∧ (Instr.rotl32 1 1).opcode ≠ .build
        ∧ (Instr.rotl32 1 1).opcode ≠ .xors) := by decide
/-- PaddingIsIgnored: two XORS payloads of one data byte, and two BUILD payloads of one key and one nonce byte, that
differ in every padding byte. -/
theorem witness_PaddingIsIgnored :
    (∀ i, i < (1#16).toNat → (([0x00000007] : List Word).getD (i / 4) 0).extractLsb' (8 * (i % 4)) 8
        = (([0xffffff07] : List Word).getD (i / 4) 0).extractLsb' (8 * (i % 4)) 8)
      ∧ ([5, 0x00000007, 0x00000009] : List Word).length = ([5, 0xffffff07, 0xffffff09] : List Word).length
      ∧ ([5, 0x00000007, 0x00000009] : List Word).getD 0 0 = ([5, 0xffffff07, 0xffffff09] : List Word).getD 0 0
      ∧ (∀ i, i < (1#8).toNat → (([5, 0x00000007, 0x00000009] : List Word).getD (1 + i / 4) 0).extractLsb' (8 * (i % 4)) 8
        = (([5, 0xffffff07, 0xffffff09] : List Word).getD (1 + i / 4) 0).extractLsb' (8 * (i % 4)) 8)
      ∧ (∀ i, i < (1#8).toNat →
        (([5, 0x00000007, 0x00000009] : List Word).getD (1 + ((1#8).toNat + 3) / 4 + i / 4) 0).extractLsb' (8 * (i % 4)) 8
        = (([5, 0xffffff07, 0xffffff09] : List Word).getD (1 + ((1#8).toNat + 3) / 4 + i / 4) 0).extractLsb'
            (8 * (i % 4)) 8) := by decide
/-- WordCommandsComplete: the smallest and the largest nonzero amount. -/
theorem witness_rotl32_amount : (1 : BitVec 5) ≠ 0 ∧ (31 : BitVec 5) ≠ 0 := by decide
/-- XorsCompletes: KSLEN at both ends of 1..64, with more data than keystream under W = 1 and as much under W = 0. -/
theorem witness_XorsCompletes :
    (1 ≤ (1 : BitVec 7).toNat ∧ (1 : BitVec 7).toNat ≤ 64 ∧ (true = true ∨ ([1, 2] : List Byte).length ≤ (1 : BitVec 7).toNat))
      ∧ (1 ≤ (64 : BitVec 7).toNat ∧ (64 : BitVec 7).toNat ≤ 64
        ∧ (false = true ∨ (List.replicate 64 (0 : Byte)).length ≤ (64 : BitVec 7).toNat)) := by decide
/-- UnwrittenOperandIsRefused: at reset no register has a value; KSLEN 1 and 64 reach the check. -/
theorem witness_UnwrittenOperandIsRefused :
    (State.reset.engine.state = none ∧ State.reset.engine.out = none ∧ State.reset.engine.ks = none)
      ∧ (1 ≤ (1 : BitVec 7).toNat ∧ (1 : BitVec 7).toNat ≤ 64) ∧ (1 ≤ (64 : BitVec 7).toNat ∧ (64 : BitVec 7).toNat ≤ 64) :=
  ⟨⟨rfl, rfl, rfl⟩, by decide⟩
/-- RefusedOperandValues, its XORS clauses: KSLEN 65; KSLEN 64 with 65 data bytes and KS written. -/
theorem witness_RefusedOperandValues :
    64 < (65 : BitVec 7).toNat
      ∧ (1 ≤ (64 : BitVec 7).toNat ∧ (64 : BitVec 7).toNat ≤ 64 ∧ (st e4Engine).engine.ks ≠ none
        ∧ (64 : BitVec 7).toNat < (List.replicate 65 (0 : Byte)).length) := by decide +kernel
/-- ErrorsArePrecise: RDSTATE after reset answers a next state with code 0x83. -/
theorem witness_ErrorsArePrecise :
    ∃ t, onPacket State.reset 0x00000012 [] = .next t ∧ t.engine.lastCode ≠ 0x00 := ⟨_, rfl, by decide⟩
/-- StepRunsTheDecodedCommand. -/
theorem witness_StepRunsTheDecodedCommand :
    (startRun [⟨0x0000003f, []⟩]).pending = .packet ⟨0x0000003f, []⟩ :: [] ∧ decode ⟨0x0000003f, []⟩ = .ok .rdstatus :=
  ⟨rfl, by decide⟩
/-- OtherInputs: a state for each of its four clauses. -/
theorem witness_OtherInputs :
    State.reset.pending = []
      ∧ ({ State.reset with pending := [.reset] } : State).pending = .reset :: []
      ∧ ({ State.reset with pending := [.resetDuring ⟨0x20, []⟩] } : State).pending = .resetDuring ⟨0x20, []⟩ :: []
      ∧ ({ State.reset with pending := [.secondHost ⟨0x20, []⟩] } : State).pending = .secondHost ⟨0x20, []⟩ :: [] :=
  ⟨rfl, rfl, rfl, rfl⟩
/-- OnlyResetClearsStickyBits: a step that completes with both sticky bits set, and a reset input. -/
theorem witness_OnlyResetClearsStickyBits :
    (∃ t, step { st { Engine.reset with stickyErr := true, stickyFault := true } with pending := [.packet ⟨0x3f, []⟩] }
          = .next t ∧ t.engine.lastCode = 0x00)
      ∧ ∃ t, step { st { Engine.reset with stickyErr := true } with pending := [.reset] } = .next t :=
  ⟨⟨_, rfl, by decide⟩, ⟨_, rfl⟩⟩
/-- RegisterWriters: a command that writes no register, on a state whose registers have values. -/
theorem witness_RegisterWriters :
    (∃ t, exec .rdstatus (st e4Engine) = .next t)
      ∧ Instr.rdstatus.opcode ≠ .build ∧ Instr.rdstatus.opcode ≠ .ldstate ∧ Instr.rdstatus.opcode ≠ .block
      ∧ Instr.rdstatus.opcode ≠ .serial ∧ Instr.rdstatus.opcode ≠ .ldks
      ∧ e4Engine.state ≠ none ∧ e4Engine.out ≠ none ∧ e4Engine.ks ≠ none :=
  ⟨⟨_, rfl⟩, by decide, by decide, by decide, by decide, by decide, by simp [e4Engine], by simp [e4Engine],
    by simp [e4Engine]⟩
/-- InvariantIsKept: a state with a value in OUT and a recorded error meets the invariant, and it steps. -/
theorem witness_InvariantIsKept :
    stateWf { st { e4Engine with lastCode := 0x83, stickyFault := true } with
        pending := [.packet ⟨0x20, []⟩], responses := [⟨0x00002083, []⟩] }
      ∧ ∃ t, step { st { e4Engine with lastCode := 0x83, stickyFault := true } with
        pending := [.packet ⟨0x20, []⟩], responses := [⟨0x00002083, []⟩] } = .next t := by
  refine ⟨⟨⟨by decide, by decide, fun _ => rfl, fun _ => rfl⟩, ?_⟩, ⟨_, rfl⟩⟩
  simp only [List.mem_singleton, forall_eq]
  exact ⟨by decide, by decide, fun _ => rfl⟩
/-- RunAnswersEveryPacket, RunIsSequential: two packets pending, and the run over the first of them. -/
theorem witness_runs :
    (startRun [⟨0x3f, []⟩, ⟨0x00, []⟩]).pending = [⟨0x3f, []⟩, ⟨0x00, []⟩].map HostInput.packet
      ∧ ∃ t, Host.Core.run core [(⟨0x3f, []⟩ : Packet)].length
          { State.reset with pending := [(⟨0x3f, []⟩ : Packet)].map .packet } = .next t := ⟨rfl, ⟨_, rfl⟩⟩
/-- ReadsRepeat: each read command twice, RDSTATUS too. -/
theorem witness_ReadsRepeat :
    Instr.rdks.opcode ∈ [Opcode.rdstate, .rdout, .rdks, .rdstatus] ∧ Instr.rdks.opcode ≠ .rdstatus
      ∧ Instr.rdstatus.opcode ∈ [Opcode.rdstate, .rdout, .rdks, .rdstatus]
      ∧ (∃ t u, exec .rdks (st e4Engine) = .next t ∧ exec .rdks t = .next u)
      ∧ ∃ t u, exec .rdstatus (st e4Engine) = .next t ∧ exec .rdstatus t = .next u :=
  ⟨by decide, by decide, by decide, ⟨_, _, rfl, rfl⟩, ⟨_, _, rfl, rfl⟩⟩
/-- BlockRepeats: BLOCK.T twice, and BLOCK, where STATE has a value. -/
theorem witness_BlockRepeats :
    (∃ u v, exec (.block true) (st e4Engine) = .next u ∧ exec (.block true) u = .next v)
      ∧ ∃ u, exec (.block false) (st e4Engine) = .next u := ⟨⟨_, _, rfl, rfl⟩, ⟨_, rfl⟩⟩
/-- XorsReadsOnlyItsKeystream: two KS values that agree on their first 2 bytes and differ in the third. -/
theorem witness_XorsReadsOnlyItsKeystream :
    (∀ j, j < (2 : BitVec 7).toNat → ks11.toList.getD j 0 = (ks11.set 2 0).toList.getD j 0) ∧ ks11 ≠ ks11.set 2 0 := by
  decide +kernel
/-- XorsTwiceGivesTheData: XORS.W #3 on four bytes completes. -/
theorem witness_XorsTwiceGivesTheData :
    ∃ t r, exec (.xors 3 true [0, 1, 2, 3]) (st { Engine.reset with ks := some ks11 }) = .next t
      ∧ t.engine.lastCode = 0x00
      ∧ t.responses = [] ++ [{ status := BitVec.ofNat 16 r.length ++ 0x3300#16, result := r }] :=
  ⟨_, [0xa90d54aa], rfl, by decide +kernel, by decide +kernel⟩
/-- EncryptNMeetsTheHostDuties: the last counter that fits 65 bytes is taken, and the next is refused. -/
theorem witness_EncryptNMeetsTheHostDuties :
    (Pseudo.encryptN [] 0xFFFFFFFE [] (List.replicate 65 0)).expand.isSome = true
      ∧ (Pseudo.encryptN [] 0xFFFFFFFF [] (List.replicate 65 0)).expand = none := by decide +kernel

end Sys2Proof.Tests
end

section
/-! PROOFS of the family 10_state: the STATUS word, the writers of each register, the sticky bits, and the
invariant of the machine (10_state.md R23, R27, R28, R35). First the facts they need: the bits of STATUS, the
inversions of `decode`, `exec` and `runPacket`, and the length of a response. -/

namespace Sys2Proof

open Machine

/-! ## The bits of STATUS (R27) -/

/-- A flag appended to a word is the word's bit 0; `append_bit` for one bit. -/
theorem append_ofBool_bit {v n : Nat} (h : v + 1 = n) (x : BitVec v) (b : Bool) (i : Nat) :
    BitVec.getLsbD (w := n) (h ▸ (x ++ BitVec.ofBool b)) i = if i = 0 then b else x.getLsbD (i - 1) := by
  rw [append_bit]
  exact ite_congr (by simp) (fun hi => by subst hi; simp) fun _ => rfl

/-- A bit of STATUS, field by field from the least significant end. -/
theorem status_getLsbD (e : Engine) (i : Nat) :
    e.status.getLsbD i =
      if i < 8 then e.lastCode.getLsbD i
      else if i < 16 then e.lastOpc.getLsbD (i - 8)
      else if i = 16 then e.stickyErr
      else if i = 17 then e.stickyFault
      else if i = 18 then e.state.isSome
      else if i = 19 then e.out.isSome
      else if i = 20 then e.ks.isSome
      else false := by
  refine (append_bit rfl _ e.lastCode i).trans (ite_congr rfl (fun _ => rfl) fun _ => ?_)
  refine (append_bit rfl _ e.lastOpc _).trans (ite_congr (propext (by omega)) (fun _ => rfl) fun _ => ?_)
  refine (append_ofBool_bit rfl _ e.stickyErr _).trans
    (ite_congr (propext (by omega)) (fun _ => rfl) fun _ => ?_)
  refine (append_ofBool_bit rfl _ e.stickyFault _).trans
    (ite_congr (propext (by omega)) (fun _ => rfl) fun _ => ?_)
  refine (append_ofBool_bit rfl _ e.state.isSome _).trans
    (ite_congr (propext (by omega)) (fun _ => rfl) fun _ => ?_)
  refine (append_ofBool_bit rfl _ e.out.isSome _).trans
    (ite_congr (propext (by omega)) (fun _ => rfl) fun _ => ?_)
  refine (append_ofBool_bit rfl _ e.ks.isSome _).trans
    (ite_congr (propext (by omega)) (fun _ => rfl) fun _ => ?_)
  exact BitVec.getLsbD_zero

/-! ## Codes (R230) -/

@[simp] theorem Machine.Code.toByte_eq_zero_iff {c : Code} : c.toByte = 0 ↔ c = .ok :=
  ⟨fun h => Code.toByte_inj (d := .ok) h, fun h => h ▸ rfl⟩

@[simp] theorem Machine.Code.isInputError_ok : Code.ok.isInputError = false := rfl

@[simp] theorem Machine.Code.isCommandFault_ok : Code.ok.isCommandFault = false := rfl

/-! ## What the decoder answers (R84, R86) -/

theorem badPayloadCode_ne_ok (op : Opcode) (h : Word) : badPayloadCode op h ≠ .ok := by
  unfold badPayloadCode
  split_ifs <;> decide

theorem decode_error_ne_ok {p : Packet} {c : Code} (h : decode p = .error c) : c ≠ .ok := by
  unfold decode at h
  split at h
  · cases h; decide
  · split_ifs at h <;> cases h
    · decide
    · exact badPayloadCode_ne_ok _ _

/-- A packet that decodes has an opcode of the map and the payload length its header announces, and the command's
operands are read from it. -/
theorem decode_ok {p : Packet} {i : Instr} (h : decode p = .ok i) :
    ∃ op : Opcode, op.toByte = opcField p.header ∧ p.payload.length = plenOf op p.header
      ∧ i = readOperands op p.header p.payload := by
  unfold decode at h
  split at h
  · cases h
  · rename_i op ho
    split_ifs at h with hr hl
    cases h
    exact ⟨op, Opcode.toByte_of_ofByte ho, not_not.mp hl, rfl⟩

@[simp] theorem readOperands_opcode (op : Opcode) (h : Word) (p : List Word) :
    (readOperands op h p).opcode = op := by
  cases op <;> rfl

/-- The byte strings of a decoded command are no longer than their length fields can count (R83). -/
theorem readOperands_wellFormed (op : Opcode) (h : Word) (p : List Word) :
    (readOperands op h p).wellFormed = true := by
  cases op with
  | build =>
    have hk := (klenField h).isLt
    have hn := (nlenField h).isLt
    simp only [readOperands, Instr.wellFormed, unpack_length, Bool.and_eq_true, decide_eq_true_eq]
    omega
  | xors =>
    have hd := (dlenField h).isLt
    simp only [readOperands, Instr.wellFormed, unpack_length, decide_eq_true_eq]
    omega
  | _ => rfl

/-! ## What a command and a packet can do -/

/-- `exec_cases` read from the next state: the command completed with a data effect of its own, or it raised a code
other than 0x00. -/
theorem Machine.exec_next_cases {i : Instr} {s t : State} (h : exec i s = .next t) :
    (∃ e r, DataEffect i s.engine e ∧ t = s.complete e i.opcode r)
      ∨ ∃ c, c ≠ Code.ok ∧ t = s.raise i.opcode.toByte c := by
  obtain ⟨e, r, he, hx⟩ | ⟨c, hc, hx⟩ := exec_cases i s
  · exact .inl ⟨e, r, he, by simpa [h] using hx⟩
  · exact .inr ⟨c, hc, by simpa [h] using hx⟩

/-- A packet either raises a code other than 0x00, or decodes to a command that completes with a data effect of its
own (R86). -/
theorem Machine.runPacket_next_cases {p : Packet} {s t : State} (h : runPacket p s = .next t) :
    (∃ i e r, decode p = .ok i ∧ DataEffect i s.engine e ∧ t = s.complete e i.opcode r)
      ∨ ∃ c, c ≠ Code.ok ∧ t = s.raise (opcField p.header) c := by
  obtain ⟨c, hd, hr⟩ | ⟨i, hd, hr⟩ := runPacket_cases p s
  · exact .inr ⟨c, decode_error_ne_ok hd, by simpa [h] using hr⟩
  · obtain ⟨e, r, he, ht⟩ | ⟨c, hc, ht⟩ := exec_next_cases (hr.symm.trans h)
    · exact .inl ⟨i, e, r, hd, he, ht⟩
    · obtain ⟨op, ho, -, rfl⟩ := decode_ok hd
      exact .inr ⟨c, hc, by simpa [ho] using ht⟩

section
variable {i : Instr} {e e' : Engine} (h : DataEffect i e e')
include h

theorem Machine.DataEffect.stickyErr : e'.stickyErr = e.stickyErr := by cases h <;> rfl

theorem Machine.DataEffect.stickyFault : e'.stickyFault = e.stickyFault := by cases h <;> rfl

/-- OUT is written only while STATE has a value, and STATE never loses its value (R23, R176). -/
theorem Machine.DataEffect.out_needs_state (ho : e.out.isSome = true → e.state.isSome = true) :
    e'.out.isSome = true → e'.state.isSome = true := by
  cases h with
  | none => exact ho
  | state b _ => exact fun _ => rfl
  | out b _ hs => exact fun _ => hs
  | ks k _ => exact ho

end

/-! ## The length of a response (R84, R85)

RLEN is a field of 16 bits, so it counts the result words only where they are fewer than 2^16. The long results
are the trace of BLOCK.T and the output of XORS, whose data is counted by the 16 bits of DLEN. -/

@[simp] theorem Machine.snapshotWords_none : snapshotWords none = [] := rfl

@[simp] theorem Machine.snapshotWords_some_length (w : Words16) : (snapshotWords (some w)).length = 16 :=
  w.length_toList

@[simp] theorem Machine.TraceRecord.encode_length (r : TraceRecord) :
    r.encode.length = (snapshotWords r.before).length + (snapshotWords r.after).length + 1 := by
  simp [TraceRecord.encode]

@[simp] theorem Machine.encodeTrace_nil : encodeTrace [] = [] := rfl

@[simp] theorem Machine.encodeTrace_cons (r : TraceRecord) (tr : List TraceRecord) :
    encodeTrace (r :: tr) = r.encode ++ encodeTrace tr := rfl

@[simp] theorem Machine.encodeTrace_append (tr tr' : List TraceRecord) :
    encodeTrace (tr ++ tr') = encodeTrace tr ++ encodeTrace tr' := List.flatMap_append

/-- Two records of 17 words for each quarter-round. -/
theorem Machine.encodeTrace_tracePhase_length (gs : List QuadIdx) (w : Words16) :
    (encodeTrace (tracePhase gs w)).length = 34 * gs.length := by
  induction gs generalizing w with
  | nil => rfl
  | cons g gs ih => simp [tracePhase, ih]; omega

/-- Eight quarter-rounds and a `round` record for each double-round. -/
theorem Machine.encodeTrace_traceRounds_length (n : Nat) (w : Words16) :
    (encodeTrace (traceRounds n w)).length = 289 * n := by
  induction n generalizing w with
  | zero => rfl
  | succ n ih =>
    have hg : doubleRoundGroups.length = 8 := rfl
    simp [traceRounds, encodeTrace_tracePhase_length, ih, hg]; omega

/-- The trace of a block has 2940 words (R174, R175). -/
theorem Machine.encodeTrace_blockTraced_length (s : Words16) : (encodeTrace (blockTraced s).2).length = 2940 := by
  simp [blockTraced, encodeTrace_traceRounds_length, roundCount]

theorem Machine.xorStream_ok_length {data ks r : List Byte} (h : xorStream data ks = .ok r) :
    r.length = data.length := by
  unfold xorStream at h
  split_ifs at h
  cases h
  simp [xorBytes]

theorem Machine.pack_keyBytes_length (k : KeyBytes) : (pack k.toList).length = 16 := by
  simp [pack_length, wordCount]

/-! ## Responses are well formed (R84, R85, R230) -/

theorem Machine.statusWord_rlen (n : Nat) (opc : Byte) (c : Code) :
    (statusWord n opc c).extractLsb' 16 16 = BitVec.ofNat 16 n := by
  ext i hi
  simp only [BitVec.getElem_extractLsb']
  refine (append_bit_hi rfl (BitVec.ofNat 16 n ++ opc) c.toByte _ (by omega)).trans
    ((append_bit_hi rfl (BitVec.ofNat 16 n) opc _ (by omega)).trans ?_)
  simp [show 16 + i - 8 - 8 = i by omega, hi]

theorem Machine.statusWord_code (n : Nat) (opc : Byte) (c : Code) :
    (statusWord n opc c).extractLsb' 0 8 = c.toByte :=
  opcField_append _ _

theorem responseWf_respond (opc : Byte) (c : Code) {r : List Word} (hr : r.length < 2 ^ 16) :
    responseWf (respond opc c r) := by
  have hc : c.toByte ∈ Code.all.map Code.toByte := List.mem_map_of_mem (Code.mem_all c)
  by_cases h : c = .ok
  · subst h
    simp [responseWf, responseCode, statusWord_rlen, statusWord_code, hc]
    exact ⟨by simpa using hr, fun h => absurd rfl h⟩
  · simp [responseWf, responseCode, respond_error opc h, statusWord_rlen, statusWord_code, hc]

/-- The outcome is a next state with one response more than s, and that response is well formed. -/
def AnswersWf (s : State) (o : Host.Outcome State Fault Refusal) : Prop :=
  ∃ t x, o = .next t ∧ t.responses = s.responses ++ [x] ∧ responseWf x

theorem answersWf_complete (s : State) (e : Engine) (op : Opcode) {r : List Word} (hr : r.length < 2 ^ 16) :
    AnswersWf s (.next (s.complete e op r)) :=
  ⟨_, _, rfl, rfl, responseWf_respond _ _ hr⟩

theorem answersWf_raise (s : State) (opc : Byte) (c : Code) : AnswersWf s (.next (s.raise opc c)) :=
  ⟨_, _, rfl, rfl, responseWf_respond _ _ (by decide)⟩

/-- A command that reads a register answers well if it does so for every value the register may have (R240). -/
theorem answersWf_withOperand {α : Type} (reg : Option α) (op : Opcode) (s : State)
    {body : α → Host.Outcome State Fault Refusal} (h : ∀ v, AnswersWf s (body v)) :
    AnswersWf s (withOperand reg op s body) := by
  cases reg with
  | none => exact answersWf_raise _ _ _
  | some v => exact h v

theorem answersWf_execBlock (t : Bool) (s : State) : AnswersWf s (execBlock t s) := by
  refine answersWf_withOperand _ _ _ fun b => ?_
  cases t
  · exact answersWf_complete _ _ _ (by simp)
  · exact answersWf_complete _ _ _ (by simp [encodeTrace_blockTraced_length])

theorem answersWf_execBuild (counter : Word) (key nonce : List Byte) (s : State) :
    AnswersWf s (execBuild counter key nonce s) := by
  unfold execBuild
  split
  · exact answersWf_raise _ _ _
  · exact answersWf_complete _ _ _ (by simp)

theorem answersWf_execXors (kslen : BitVec 7) (w : Bool) {data : List Byte} (s : State)
    (hd : data.length ≤ 65535) : AnswersWf s (execXors kslen w data s) := by
  unfold execXors
  split
  · exact answersWf_raise _ _ _
  split
  · exact answersWf_raise _ _ _
  · refine answersWf_withOperand _ _ _ fun k => ?_
    split
    · exact answersWf_raise _ _ _
    · split
      · exact answersWf_raise _ _ _
      · rename_i r hr
        refine answersWf_complete _ _ _ ?_
        rw [pack_length, xorStream_ok_length hr, wordCount]
        omega

/-- An encodable command answers with one well-formed response, whatever the state. -/
theorem answersWf_exec {i : Instr} (hi : i.wellFormed = true) (s : State) : AnswersWf s (exec i s) := by
  cases i with
  | add32 a b => exact answersWf_complete _ _ _ (by simp)
  | xor32 a b => exact answersWf_complete _ _ _ (by simp)
  | rotl32 n a =>
    simp only [exec, execRotl32]
    split_ifs
    · exact answersWf_raise _ _ _
    · exact answersWf_complete _ _ _ (by simp)
  | qr a b c d => exact answersWf_complete _ _ _ (by simp)
  | build counter key nonce => exact answersWf_execBuild counter key nonce s
  | ldstate b => exact answersWf_complete _ _ _ (by simp)
  | rdstate => exact answersWf_withOperand _ _ _ fun b => answersWf_complete _ _ _ (by simp)
  | block t => exact answersWf_execBlock t s
  | rdout => exact answersWf_withOperand _ _ _ fun b => answersWf_complete _ _ _ (by simp)
  | serial =>
    exact answersWf_withOperand _ _ _ fun b => answersWf_complete _ _ _ (by simp [pack_keyBytes_length])
  | ldks k => exact answersWf_complete _ _ _ (by simp)
  | rdks =>
    exact answersWf_withOperand _ _ _ fun k => answersWf_complete _ _ _ (by simp [pack_keyBytes_length])
  | xors kslen w data => exact answersWf_execXors kslen w s (by simpa [Instr.wellFormed] using hi)
  | rdstatus => exact answersWf_complete _ _ _ (by simp)

/-- Every packet is answered with one well-formed response (R84, R85, R86). -/
theorem answersWf_runPacket (p : Packet) (s : State) : AnswersWf s (runPacket p s) := by
  obtain ⟨c, -, hr⟩ | ⟨i, hd, hr⟩ := runPacket_cases p s
  · exact hr ▸ answersWf_raise _ _ _
  · obtain ⟨op, -, -, rfl⟩ := decode_ok hd
    exact hr ▸ answersWf_exec (readOperands_wellFormed _ _ _) s

/-! ## The invariant (R23, R27, R232) -/

/-- The STATUS update makes the record consistent, whatever STATUS was before. -/
theorem engineWf_record {e : Engine} (h : e.out.isSome = true → e.state.isSome = true) (opc : Byte) (c : Code) :
    engineWf (e.record opc c) := by
  refine ⟨List.mem_map_of_mem (Code.mem_all c), fun hc => ?_, fun hc => ?_, h⟩
  · have hi : c.isInputError = true := by simpa [Code.isInputError] using hc
    simp [hi]
  · have hf : c.isCommandFault = true := by simpa [Code.isCommandFault] using hc
    simp [hf]

theorem engineWf_reset : engineWf Engine.reset := by
  unfold engineWf
  decide

theorem engineWf_runPacket {p : Packet} {s t : State} (hs : engineWf s.engine) (h : runPacket p s = .next t) :
    engineWf t.engine := by
  obtain ⟨-, -, -, ho⟩ := hs
  obtain ⟨i, e, r, -, he, rfl⟩ | ⟨c, -, rfl⟩ := runPacket_next_cases h
  · exact engineWf_record (he.out_needs_state ho) _ _
  · exact engineWf_record ho _ _

theorem stateWf_runPacket {p : Packet} {s t : State} (hs : stateWf s) (h : runPacket p s = .next t) :
    stateWf t := by
  obtain ⟨he, hr⟩ := hs
  obtain ⟨t', x, ht, hx, hwf⟩ := answersWf_runPacket p s
  obtain rfl : t = t' := by simpa [h] using ht
  refine ⟨engineWf_runPacket he h, fun y hy => ?_⟩
  rw [hx, List.mem_append, List.mem_singleton] at hy
  obtain hy | rfl := hy
  · exact hr y hy
  · exact hwf

/-- Settles O52: by the three kinds of step; a packet answers one well-formed response and leaves the record
consistent. -/
theorem invariantIsKept : Obligations.InvariantIsKept := by
  intro s t hs h
  obtain ⟨-, rfl⟩ | ⟨rest, -, rfl⟩ | ⟨p, rest, -, hp⟩ := step_next_cases h
  · exact hs
  · exact ⟨engineWf_reset, hs.2⟩
  · exact stateWf_runPacket (s := s.takeInput rest) hs hp

/-- Settles O53: the record of R35 is consistent, and no response has been sent. -/
theorem invariantAtReset : Obligations.InvariantAtReset :=
  ⟨engineWf_reset, fun _ hr => absurd hr List.not_mem_nil⟩

/-! ## STATUS, the sticky bits, the registers (R27, R28, R35, R23) -/

/-- Settles O48: each value of R35 is the one that `Engine.reset` gives, and the word of STATUS is computed. -/
theorem resetValues : Obligations.ResetValues := by
  refine ⟨rfl, rfl, rfl, rfl, rfl, rfl, rfl, ?_⟩
  decide

/-- Settles O49, from the bits of STATUS. -/
theorem statusFields : Obligations.StatusFields := by
  intro e
  refine ⟨?_, ?_, ?_, ?_, ?_, ?_, ?_, ?_⟩
  · ext i hi; simp [BitVec.getElem_extractLsb', status_getLsbD, hi]
  · ext i hi; simp [BitVec.getElem_extractLsb', status_getLsbD, hi, show 8 + i < 16 by omega]
  · exact status_getLsbD e _
  · exact status_getLsbD e _
  · exact status_getLsbD e _
  · exact status_getLsbD e _
  · exact status_getLsbD e _
  · ext i hi
    simp only [BitVec.getElem_extractLsb', status_getLsbD]
    repeat rw [if_neg (by omega)]
    simp

/-- A packet never clears a sticky bit, and one that ends with code 0x00 leaves both as they are (R28). -/
theorem runPacket_keeps_sticky {p : Packet} {s t : State} (h : runPacket p s = .next t) :
    (s.engine.stickyErr = true → t.engine.stickyErr = true)
      ∧ (s.engine.stickyFault = true → t.engine.stickyFault = true)
      ∧ (t.engine.lastCode = 0x00 →
          t.engine.stickyErr = s.engine.stickyErr ∧ t.engine.stickyFault = s.engine.stickyFault) := by
  obtain ⟨i, e, r, -, he, rfl⟩ | ⟨c, hc, rfl⟩ := runPacket_next_cases h
  · simp [he.stickyErr, he.stickyFault]
  · exact ⟨fun hs => by simp [hs], fun hs => by simp [hs], fun h0 => absurd (Code.toByte_eq_zero_iff.mp h0) hc⟩

/-- Settles O50, by the three kinds of step. -/
theorem onlyResetClearsStickyBits : Obligations.OnlyResetClearsStickyBits := by
  intro s t h
  obtain ⟨hp, rfl⟩ | ⟨rest, hp, rfl⟩ | ⟨p, rest, hp, hr⟩ := step_next_cases h
  · simp [hp]
  · exact ⟨fun hn => absurd hp (hn rest), fun _ => ⟨rfl, rfl⟩⟩
  · exact ⟨fun _ => runPacket_keeps_sticky (s := s.takeInput rest) hr, by simp [hp]⟩

/-- Settles O51: a command that completes has one of the data effects of `DataEffect`, and one that raises a code has
none. -/
theorem registerWriters : Obligations.RegisterWriters := by
  intro i s t h
  obtain ⟨e, r, he, rfl⟩ | ⟨c, -, rfl⟩ := exec_next_cases h
  · cases he with
    | none => simp
    | state b hi => obtain hi | hi := hi <;> simp [hi]
    | out b hi hs => simp [hi]
    | ks k hi => obtain hi | hi := hi <;> simp [hi]
  · simp

end Sys2Proof
end

section
/-! PROOFS of the family 20_memory: byte order and byte strings, the encoder against the decoder, padding, runs over
a stream of packets, the read commands and what XORS reads (20_memory.md R52 to R66, 30_encoding.md R82 to R88).
First the facts they need: the bytes of packed and unpacked words, the header of a decoded command, and what a
command reads of the state. -/

namespace Sys2Proof

open Machine

/-! ## The bytes of words and of packed strings (R52 to R54, R56) -/

/-- `BitVec.toNat_append` as a sum: the high part counts from bit k up. -/
theorem toNat_append_eq_add {v k : Nat} (x : BitVec v) (y : BitVec k) :
    (x ++ y).toNat = 2 ^ k * x.toNat + y.toNat := by
  rw [BitVec.toNat_append, ← Nat.shiftLeft_add_eq_or_of_lt y.isLt, Nat.shiftLeft_eq, Nat.mul_comm]

theorem toNat_leWord4 (a b c d : Byte) :
    (leWord4 a b c d).toNat = a.toNat + 2 ^ 8 * b.toNat + 2 ^ 16 * c.toNat + 2 ^ 24 * d.toNat := by
  have h : (leWord4 a b c d).toNat = 2 ^ 8 * (2 ^ 8 * (2 ^ 8 * d.toNat + c.toNat) + b.toNat) + a.toNat :=
    (toNat_append_eq_add (d ++ c ++ b) a).trans (by simp only [toNat_append_eq_add])
  omega

theorem toNat_byteOf (x : Word) (k : Nat) : (byteOf x k).toNat = x.toNat / 2 ^ (8 * k) % 256 := by
  rw [byteOf, BitVec.extractLsb'_toNat, Nat.shiftRight_eq_div_pow]

/-- Byte k of word i is byte 4i+k of the string (R52). -/
theorem byteOf_leWord (b : List Byte) (i : Nat) {k : Nat} (hk : k < 4) :
    byteOf (leWord b i) k = b.getD (4 * i + k) 0 := by
  obtain ⟨h0, h1, h2, h3⟩ :=
    byteOf_leWord4 (b.getD (4 * i) 0) (b.getD (4 * i + 1) 0) (b.getD (4 * i + 2) 0) (b.getD (4 * i + 3) 0)
  match k with
  | 0 => exact h0
  | 1 => exact h1
  | 2 => exact h2
  | 3 => exact h3

/-- A word that has the bytes of word i of a string is that word. -/
theorem leWord_eq_of_byteOf {b : List Byte} {i : Nat} {x : Word}
    (h : ∀ k, k < 4 → b.getD (4 * i + k) 0 = byteOf x k) : leWord b i = x := by
  have h0 : b.getD (4 * i) 0 = byteOf x 0 := h 0 (by decide)
  rw [leWord, h0, h 1 (by decide), h 2 (by decide), h 3 (by decide), leWord4_byteOf]

/-- Byte i of the words' bytes is byte i mod 4 of word i/4; past the end both sides are 0. -/
theorem flatMap_leBytes_getD (ws : List Word) (i : Nat) :
    (ws.flatMap leBytes).getD i 0 = byteOf (ws.getD (i / 4) 0) (i % 4) := by
  induction ws generalizing i with
  | nil => simp [byteOf]
  | cons w ws ih =>
    match i with
    | 0 | 1 | 2 | 3 => rfl
    | i + 4 =>
      have hdiv : (i + 4) / 4 = i / 4 + 1 := by omega
      have hmod : (i + 4) % 4 = i % 4 := by omega
      rw [hdiv, hmod]
      exact ih i

/-- Byte i of an unpacked string (R54). -/
theorem unpack_getD (ws : List Word) {n i : Nat} (hi : i < n) :
    (unpack ws n).getD i 0 = byteOf (ws.getD (i / 4) 0) (i % 4) := by
  rw [← flatMap_leBytes_getD, unpack, List.getD_eq_getElem?_getD, List.getD_eq_getElem?_getD,
    List.getElem?_take_of_lt hi]

/-- Unpacking depends on the counted bytes and on the number of words alone: padding is ignored (R54). -/
theorem unpack_congr {ws ws' : List Word} {n : Nat} (hl : ws.length = ws'.length)
    (h : ∀ i, i < n → byteOf (ws.getD (i / 4) 0) (i % 4) = byteOf (ws'.getD (i / 4) 0) (i % 4)) :
    unpack ws n = unpack ws' n := by
  refine List.ext_getElem (by simp only [unpack_length, hl]) fun i hi hi' => ?_
  have hn : i < n := by rw [unpack_length] at hi; omega
  rw [List.getElem_eq_getD 0, List.getElem_eq_getD 0, unpack_getD _ hn, unpack_getD _ hn, h i hn]

theorem leWord_past_end {b : List Byte} {i : Nat} (h : b.length ≤ 4 * i) : leWord b i = 0 :=
  leWord_eq_of_byteOf fun k _ => by
    rw [List.getD_eq_default _ _ (by omega)]
    simp [byteOf]

/-- Zero bytes after the end are the zeros that a read past the end gives. -/
theorem leWord_append_zeros (b : List Byte) (n i : Nat) : leWord (b ++ List.replicate n 0) i = leWord b i := by
  have hb : ∀ j, (b ++ List.replicate n 0).getD j 0 = b.getD j 0 := fun j => by
    by_cases hj : j < b.length
    · exact List.getD_append _ _ _ _ hj
    · rw [List.getD_append_right _ _ _ _ (by omega), List.getD_eq_default _ _ (Nat.le_of_not_lt hj)]
      exact List.getElem?_getD_replicate_default_eq _ _ _
  simp only [leWord, hb]

/-- Word j of a packed string is word j of the string, with zeros past its end (R54). -/
theorem pack_getD (b : List Byte) (j : Nat) : (pack b).getD j 0 = leWord b j := by
  induction b using pack.induct generalizing j with
  | case1 => exact (leWord_past_end (Nat.zero_le _)).symm
  | case5 a b c d rest ih =>
    cases j with
    | zero => rfl
    | succ j => exact ih j
  | _ =>
    cases j with
    | zero => rfl
    | succ j => exact (leWord_past_end (by simp; omega)).symm

/-- Byte i of a packed string is byte i of the string (R54). -/
theorem byteOf_pack (b : List Byte) (i : Nat) : byteOf ((pack b).getD (i / 4) 0) (i % 4) = b.getD i 0 := by
  rw [pack_getD, byteOf_leWord _ _ (by omega), Nat.div_add_mod]

theorem unpack_pack (b : List Byte) : unpack (pack b) b.length = b := by
  induction b using pack.induct with
  | case1 => rfl
  | case2 a => simp [unpack, pack, leBytes_leWord4]
  | case3 a b => simp [unpack, pack, leBytes_leWord4]
  | case4 a b c => simp [unpack, pack, leBytes_leWord4]
  | case5 a b c d rest ih => simpa [unpack, pack, leBytes_leWord4] using ih

@[simp] theorem words16_getElem (p : List Word) {i : Nat} (hi : i < 16) : (words16 p)[i] = p.getD i 0 := by
  simp [words16]

@[simp] theorem bytes64_getElem (b : Words16) {j : Nat} (hj : j < 64) :
    (bytes64 b)[j] = byteOf b[j / 4] (j % 4) := by
  simp [bytes64]

/-- Sixteen words written out are read back. -/
@[simp] theorem words16_toList (s : Words16) : words16 s.toList = s := by
  ext i hi
  simp [hi]

theorem toList_words16 {p : List Word} (hp : p.length = 16) : (words16 p).toList = p :=
  List.ext_getElem (by simp [hp]) fun i _ hi => by simp [hi]

/-- The 64 bytes of the words of a packed keystream are the keystream (R56). -/
theorem bytes64_words16_pack (k : KeyBytes) : bytes64 (words16 (pack k.toList)) = k := by
  ext j hj : 1
  rw [bytes64_getElem _ hj, words16_getElem, byteOf_pack, ← List.getElem_eq_getD (h := by simpa using hj) 0,
    Vector.getElem_toList]

/-- Packing the 64 bytes of sixteen words gives the words (R56, R191). -/
theorem pack_bytes64 (b : Words16) : pack (bytes64 b).toList = b.toList := by
  refine List.ext_getElem (by simp [pack_length, wordCount]) fun j _ hj => ?_
  have hj : j < 16 := by simpa using hj
  rw [List.getElem_eq_getD 0, pack_getD, Vector.getElem_toList]
  refine leWord_eq_of_byteOf fun k hk => ?_
  rw [← List.getElem_eq_getD (h := by simp; omega) 0, Vector.getElem_toList, bytes64_getElem _ (by omega)]
  have hdiv : (4 * j + k) / 4 = j := by omega
  have hmod : (4 * j + k) % 4 = k := by omega
  simp only [hdiv, hmod]

/-- Settles O15: a word is the sum of its bytes, and has the bytes it is made of. -/
theorem littleEndianWords : Obligations.LittleEndianWords := by
  refine ⟨fun b i h => ?_, fun x => ⟨?_, ?_⟩⟩
  · simp only [leWord, toNat_leWord4, List.getElem_eq_getD (0 : Byte)]
  · have h3 : x.toNat / 16777216 % 256 = x.toNat / 16777216 := Nat.mod_eq_of_lt (by omega)
    simp [leBytes, toNat_byteOf, h3]
  · exact leWord4_byteOf x

/-- Settles O16: words and bytes of a packed and of an unpacked string by their positions. -/
theorem packAndUnpack : Obligations.PackAndUnpack := by
  refine ⟨fun b => ⟨pack_length b, fun j hj => ?_, unpack_pack b⟩, fun ws n i hi h => ?_⟩
  · have hl : j < (pack b).length := by rwa [pack_length]
    rw [List.getElem?_eq_getElem hl, List.getElem_eq_getD 0, pack_getD]
    exact congrArg some (leWord_append_zeros b 3 j).symm
  · have hl : i < (unpack ws n).length := by rw [unpack_length]; omega
    rw [List.getElem?_eq_getElem hl, List.getElem_eq_getD 0, unpack_getD _ hi, ← List.getElem_eq_getD]
    rfl

/-! ## The encoder and the decoder (R81 to R88) -/

theorem Laws.Header.all (i : Instr) : Laws.Header.Statement i := by
  cases i with
  | add32 a b => exact Laws.Header.add32 a b
  | xor32 a b => exact Laws.Header.xor32 a b
  | rotl32 n a => exact Laws.Header.rotl32 n a
  | qr a b c d => exact Laws.Header.qr a b c d
  | build counter key nonce => exact Laws.Header.build counter key nonce
  | ldstate s => exact Laws.Header.ldstate s
  | rdstate => exact Laws.Header.rdstate
  | block t => exact Laws.Header.block t
  | rdout => exact Laws.Header.rdout
  | serial => exact Laws.Header.serial
  | ldks ks => exact Laws.Header.ldks ks
  | rdks => exact Laws.Header.rdks
  | xors kslen w data => exact Laws.Header.xors kslen w data
  | rdstatus => exact Laws.Header.rdstatus

theorem Laws.Length.all (i : Instr) : Laws.Length.Statement i := by
  cases i with
  | build counter key nonce => exact Laws.Length.build counter key nonce
  | ldstate s => exact Laws.Length.ldstate s
  | ldks ks => exact Laws.Length.ldks ks
  | xors kslen w data => exact Laws.Length.xors kslen w data
  | _ => exact fun _ => rfl

/-- The payload of BUILD, cut where the decoder cuts it: the packed key, and then the packed nonce (R144). -/
theorem readOperands_build (h counter : Word) {key nonce : List Byte}
    (hk : (klenField h).toNat = key.length) (hn : (nlenField h).toNat = nonce.length) :
    readOperands .build h (counter :: (pack key ++ pack nonce)) = .build counter key nonce := by
  have hkey : ((counter :: (pack key ++ pack nonce)).drop 1).take (wordCount key.length) = pack key :=
    List.take_left' (pack_length key)
  have hnonce : (counter :: (pack key ++ pack nonce)).drop (1 + wordCount key.length) = pack nonce := by
    rw [Nat.add_comm, List.drop_succ_cons, List.drop_left' (pack_length key)]
  simp only [readOperands, hk, hn, hkey, hnonce, unpack_pack]
  rfl

/-- The operands the decoder reads from a command's own packet are the command's. -/
theorem readOperands_encode {i : Instr} (hi : i.wellFormed = true) :
    readOperands i.opcode (encodeHeader i) (encodePayload i) = i := by
  cases i with
  | rotl32 n a => exact congrArg (Instr.rotl32 · a) (nField_append _ _ _)
  | build counter key nonce =>
    simp only [Instr.wellFormed, Bool.and_eq_true, decide_eq_true_eq] at hi
    obtain ⟨hk, hn⟩ := hi
    refine readOperands_build _ counter ?_ ?_
    · simpa [encodeHeader, klenField_append] using Nat.lt_succ_of_le hk
    · simpa [encodeHeader, nlenField_append] using Nat.lt_succ_of_le hn
  | ldstate s => exact congrArg Instr.ldstate (words16_toList s)
  | block t => exact congrArg Instr.block (tField_append _ _ _)
  | ldks ks => exact congrArg Instr.ldks (bytes64_words16_pack ks)
  | xors kslen w data =>
    have hd : data.length < 2 ^ 16 := by simpa [Instr.wellFormed, Nat.lt_succ_iff] using hi
    have hl : (BitVec.ofNat 16 data.length).toNat = data.length := by simpa using hd
    simp only [Instr.opcode, readOperands, encodeHeader, encodePayload, kslenField_append, wField_append,
      dlenField_append, hl, unpack_pack]
  | _ => rfl

/-- Settles O20: the header names the command and sets no reserved bit, the payload has the announced length, and the
operands read back are the command's. -/
theorem decodeEncode : Obligations.DecodeEncode := by
  intro i hi
  obtain ⟨hopc, hres⟩ := Laws.Header.all i
  rw [encode, decode_of_opcField hopc, if_neg (not_not.mpr hres), if_neg (not_not.mpr (Laws.Length.all i hi)),
    readOperands_encode hi]

/-! ## The header of a decoded command -/

/-- Two neighbouring fields of a word, joined. -/
theorem extractLsb'_append_next (x : Word) (start len len' : Nat) :
    x.extractLsb' (start + len) len' ++ x.extractLsb' start len = x.extractLsb' start (len' + len) :=
  BitVec.extractLsb'_append_extractLsb'_eq_extractLsb' rfl

/-- A flag of a word is a field of one bit. -/
theorem ofBool_getLsbD (x : Word) (n : Nat) : BitVec.ofBool (x.getLsbD n) = x.extractLsb' n 1 := by
  ext i hi
  simp [BitVec.getElem_extractLsb', show i = 0 by omega]

/-- The bits above OPC, and OPC. -/
theorem header_eq_append_opcField (h : Word) : h.extractLsb' 8 24 ++ opcField h = h :=
  (extractLsb'_append_next h 0 8 24).trans BitVec.extractLsb'_eq_self

theorem header_f0 {h : Word} (hr : h &&& Format.f0.rsvdMask = 0) : 0#24 ++ opcField h = h := by
  have e := header_eq_append_opcField h
  rw [← e] at hr
  rwa [(reserved_f0 _ _).mp hr] at e

theorem header_fr {h : Word} (hr : h &&& Format.fr.rsvdMask = 0) : 0#19 ++ nField h ++ opcField h = h := by
  have e : h.extractLsb' 13 19 ++ nField h ++ opcField h = h :=
    (congrArg (· ++ opcField h) (extractLsb'_append_next h 8 5 19)).trans (header_eq_append_opcField h)
  rw [← e] at hr
  rwa [(reserved_fr _ _ _).mp hr] at e

theorem header_fb {h : Word} (hr : h &&& Format.fb.rsvdMask = 0) :
    0#8 ++ nlenField h ++ klenField h ++ opcField h = h := by
  have e : h.extractLsb' 24 8 ++ nlenField h ++ klenField h ++ opcField h = h := by
    refine Eq.trans (congrArg (· ++ opcField h) ?_) (header_eq_append_opcField h)
    exact (congrArg (· ++ klenField h) (extractLsb'_append_next h 16 8 8)).trans
      (extractLsb'_append_next h 8 8 16)
  rw [← e] at hr
  rwa [(reserved_fb _ _ _ _).mp hr] at e

theorem header_ft {h : Word} (hr : h &&& Format.ft.rsvdMask = 0) :
    0#23 ++ BitVec.ofBool (tField h) ++ opcField h = h := by
  have e : h.extractLsb' 9 23 ++ BitVec.ofBool (tField h) ++ opcField h = h := by
    refine Eq.trans (congrArg (· ++ opcField h) ?_) (header_eq_append_opcField h)
    rw [tField, ofBool_getLsbD]
    exact extractLsb'_append_next h 8 1 23
  rw [← e] at hr
  rwa [(reserved_ft _ _ _).mp hr] at e

theorem header_fx (h : Word) :
    dlenField h ++ BitVec.ofBool (wField h) ++ kslenField h ++ opcField h = h := by
  refine Eq.trans (congrArg (· ++ opcField h) ?_) (header_eq_append_opcField h)
  rw [wField, ofBool_getLsbD]
  exact (congrArg (· ++ kslenField h) (extractLsb'_append_next h 15 1 16)).trans
    (extractLsb'_append_next h 8 7 17)

/-- A packet that decodes has no reserved bit set (R86, R88). -/
theorem decode_ok_reserved {p : Packet} {i : Instr} (h : decode p = .ok i) :
    p.header &&& i.opcode.format.rsvdMask = 0 := by
  unfold decode at h
  split at h
  · cases h
  · split_ifs at h with hr hl
    cases h
    rw [readOperands_opcode]
    exact not_not.mp hr

/-- The byte strings that the decoder reads have the lengths of their fields (R83, R84). -/
theorem unpack_key_length {h : Word} {p : List Word} (hl : p.length = plenOf .build h) :
    (unpack ((p.drop 1).take (wordCount (klenField h).toNat)) (klenField h).toNat).length
      = (klenField h).toNat :=
  unpack_length_of_wordCount (by rw [List.length_take, List.length_drop, hl]; simp only [plenOf]; omega)

theorem unpack_nonce_length {h : Word} {p : List Word} (hl : p.length = plenOf .build h) :
    (unpack (p.drop (1 + wordCount (klenField h).toNat)) (nlenField h).toNat).length = (nlenField h).toNat :=
  unpack_length_of_wordCount (by rw [List.length_drop, hl]; simp only [plenOf]; omega)

theorem unpack_data_length {h : Word} {p : List Word} (hl : p.length = plenOf .xors h) :
    (unpack p (dlenField h).toNat).length = (dlenField h).toNat :=
  unpack_length_of_wordCount hl

/-- A header with no reserved bit set is the header of the command read from its packet: every assigned bit is a
field that the command keeps (R82, R83). -/
theorem encodeHeader_readOperands {op : Opcode} {h : Word} {p : List Word} (ho : op.toByte = opcField h)
    (hr : h &&& op.format.rsvdMask = 0) (hl : p.length = plenOf op h) :
    encodeHeader (readOperands op h p) = h := by
  cases op with
  | rotl32 => rw [readOperands, encodeHeader, ho]; exact header_fr hr
  | build =>
    simp only [readOperands, encodeHeader, ho, unpack_key_length hl, unpack_nonce_length hl, BitVec.ofNat_toNat,
      BitVec.setWidth_eq]
    exact header_fb hr
  | block => rw [readOperands, encodeHeader, ho]; exact header_ft hr
  | xors =>
    simp only [readOperands, encodeHeader, ho, unpack_data_length hl, BitVec.ofNat_toNat, BitVec.setWidth_eq]
    exact header_fx h
  | _ => rw [readOperands, encodeHeader, ho]; exact header_f0 hr

/-- A command with no byte string keeps every payload word (R84). -/
theorem encodePayload_readOperands {op : Opcode} {h : Word} {p : List Word} (hl : p.length = plenOf op h)
    (hb : op ≠ .build) (hx : op ≠ .xors) : encodePayload (readOperands op h p) = p := by
  cases op with
  | build => exact absurd rfl hb
  | xors => exact absurd rfl hx
  | ldstate => exact toList_words16 hl
  | ldks => rw [readOperands, encodePayload, pack_bytes64, toList_words16 hl]
  | rotl32 =>
    obtain ⟨a, rfl⟩ := List.length_eq_one_iff.mp hl
    rfl
  | add32 | xor32 =>
    obtain ⟨a, b, rfl⟩ := List.length_eq_two.mp hl
    rfl
  | qr =>
    have h4 : p.length = 4 := hl
    match p, h4 with
    | [_, _, _, _], _ => rfl
  | _ => exact (List.length_eq_zero_iff.mp hl).symm

/-- A counted byte of words that are unpacked and packed again stays as it was (R54). -/
theorem byteOf_pack_unpack (ws : List Word) {n i : Nat} (hi : i < n) :
    byteOf ((pack (unpack ws n)).getD (i / 4) 0) (i % 4) = byteOf (ws.getD (i / 4) 0) (i % 4) := by
  rw [byteOf_pack, unpack_getD _ hi]

/-- In the payload of BUILD the packed key follows the counter (R144). -/
theorem build_payload_key (counter : Word) (key nonce : List Byte) {i : Nat} (hi : i < key.length) :
    (encodePayload (.build counter key nonce)).getD (1 + i / 4) 0 = (pack key).getD (i / 4) 0 := by
  rw [encodePayload, Nat.add_comm, List.getD_cons_succ]
  exact List.getD_append _ _ _ _ (by rw [pack_length, wordCount]; omega)

/-- In the payload of BUILD the packed nonce follows the packed key of n bytes (R144). -/
theorem build_payload_nonce (counter : Word) {key : List Byte} {n : Nat} (hn : key.length = n)
    (nonce : List Byte) (i : Nat) :
    (encodePayload (.build counter key nonce)).getD (1 + (n + 3) / 4 + i) 0 = (pack nonce).getD i 0 := by
  have hk : (pack key).length = (n + 3) / 4 := by rw [pack_length, hn, wordCount]
  rw [encodePayload, show 1 + (n + 3) / 4 + i = (n + 3) / 4 + i + 1 by omega, List.getD_cons_succ,
    List.getD_append_right _ _ _ _ (by omega), hk, Nat.add_sub_cancel_left]

theorem take_drop_getD (p : List Word) {n i : Nat} (hi : i < n) :
    ((p.drop 1).take n).getD i 0 = p.getD (1 + i) 0 := by
  simp only [List.getD_eq_getElem?_getD, List.getElem?_take_of_lt hi, List.getElem?_drop]

theorem drop_getD (p : List Word) (n i : Nat) : (p.drop n).getD i 0 = p.getD (n + i) 0 := by
  simp only [List.getD_eq_getElem?_getD, List.getElem?_drop]

/-- Settles O21: the header and the payload length are those of the packet, a command with no byte string keeps every
word, and a byte string that is packed again has the counted bytes that were unpacked. -/
theorem encodeDecode : Obligations.EncodeDecode := by
  intro p i h
  have hr := decode_ok_reserved h
  obtain ⟨op, ho, hl, rfl⟩ := decode_ok h
  rw [readOperands_opcode] at hr ⊢
  have hwf := readOperands_wellFormed op p.header p.payload
  have hh := encodeHeader_readOperands ho hr hl
  refine ⟨hwf, hh, ?_, fun hb hx => ?_, ?_, ?_⟩
  · refine (Laws.Length.all _ hwf).trans ?_
    rw [readOperands_opcode, hh, hl]
  · rw [encode, hh, encodePayload_readOperands hl hb hx]
  · rintro rfl j hj
    exact byteOf_pack_unpack _ hj
  · rintro rfl
    refine ⟨rfl, fun j hj => ?_, fun j hj => ?_⟩
    · refine (congrArg (byteOf · (j % 4)) (build_payload_key _ _ _ ?_)).trans ((byteOf_pack_unpack _ hj).trans ?_)
      · rwa [unpack_key_length hl]
      · rw [take_drop_getD _ (by rw [wordCount]; omega)]
        rfl
    · refine (congrArg (byteOf · (j % 4)) (build_payload_nonce _ (unpack_key_length hl) _ _)).trans
        ((byteOf_pack_unpack _ hj).trans ?_)
      rw [drop_getD]
      rfl

/-! ## Padding (R54) -/

/-- Packets of one header whose payloads have one length and give the same operands decode alike. -/
theorem decode_congr {op : Opcode} {h : Word} {p q : List Word} (ho : opcField h = op.toByte)
    (hl : p.length = q.length) (hpq : readOperands op h p = readOperands op h q) :
    decode { header := h, payload := p } = decode { header := h, payload := q } := by
  rw [decode_of_opcField ho, decode_of_opcField ho, hl, hpq]

/-- Settles O22: the operands are the same, since unpacking reads the counted bytes alone. -/
theorem paddingIsIgnored : Obligations.PaddingIsIgnored := by
  refine ⟨fun dlen w kslen p q hl hd => ?_, fun nlen klen p q hl hc hk hn => ?_⟩
  · refine decode_congr (op := .xors) (opcField_append _ _) hl ?_
    have : unpack p dlen.toNat = unpack q dlen.toNat := unpack_congr hl hd
    simp only [readOperands, dlenField_append, this]
  · refine decode_congr (op := .build) (opcField_append _ _) hl ?_
    have hkey : unpack ((p.drop 1).take (wordCount klen.toNat)) klen.toNat
        = unpack ((q.drop 1).take (wordCount klen.toNat)) klen.toNat := by
      refine unpack_congr (by simp [hl]) fun i hi => ?_
      have hw : i / 4 < wordCount klen.toNat := by rw [wordCount]; omega
      rw [take_drop_getD _ hw, take_drop_getD _ hw]
      exact hk i hi
    have hnonce : unpack (p.drop (1 + wordCount klen.toNat)) nlen.toNat
        = unpack (q.drop (1 + wordCount klen.toNat)) nlen.toNat := by
      refine unpack_congr (by simp [hl]) fun i hi => ?_
      rw [drop_getD, drop_getD]
      exact hn i hi
    simp only [readOperands, klenField_append, nlenField_append, hc, hkey, hnonce]

/-! ## One step (R63, R66, R86, R260) -/

theorem runPacket_of_decode {p : Packet} {i : Instr} (h : decode p = .ok i) (s : State) :
    runPacket p s = exec i s := by
  simp only [runPacket, h]

/-- Settles O46: the step takes the packet off the stream and runs it. -/
theorem stepRunsTheDecodedCommand : Obligations.StepRunsTheDecodedCommand :=
  fun _ _ _ _ hp hd => (step_packet hp).trans (runPacket_of_decode hd _)

/-- Settles O47, input by input. -/
theorem otherInputs : Obligations.OtherInputs := by
  intro s rest p
  refine ⟨step_idle, step_reset, fun h => ?_, fun h => ?_⟩
  · simp only [step, stepPort, h, acceptInput]
  · simp only [step, stepPort, h, acceptInput]

/-! ## What a command reads of the state

A command reads the engine and nothing else of the state: the packets still to come and the responses already sent do
not enter its result. -/

/-- f ends every command with the OPC opc: on the states of one engine it leaves one and the same engine, and answers
with one and the same code and result words. -/
def ReadsEngineOnly (opc : Byte) (f : State → Host.Outcome State Fault Refusal) : Prop :=
  ∀ e : Engine, ∃ e' c r, ∀ s : State, s.engine = e → f s = .next (s.finish e' opc c r)

theorem readsEngineOnly_complete (op : Opcode) (w : Engine → Engine) (r : Engine → List Word) :
    ReadsEngineOnly op.toByte fun s => .next (s.complete (w s.engine) op (r s.engine)) :=
  fun e => ⟨w e, .ok, r e, by rintro s rfl; rfl⟩

theorem readsEngineOnly_raise (opc : Byte) (c : Code) : ReadsEngineOnly opc fun s => .next (s.raise opc c) :=
  fun e => ⟨e, c, [], by rintro s rfl; rfl⟩

/-- A command that reads a register reads the engine only, if it does so for every value of the register (R240). -/
theorem readsEngineOnly_withOperand {α : Type} (reg : Engine → Option α) (op : Opcode)
    {body : State → α → Host.Outcome State Fault Refusal}
    (h : ∀ v, ReadsEngineOnly op.toByte fun s => body s v) :
    ReadsEngineOnly op.toByte fun s => withOperand (reg s.engine) op s (body s) := by
  intro e
  cases hv : reg e with
  | none => exact ⟨e, .operandNotWritten, [], by
      rintro s rfl
      exact congrArg (withOperand · op s (body s)) hv⟩
  | some v =>
    obtain ⟨e', c, r, hb⟩ := h v e
    exact ⟨e', c, r, by
      rintro s rfl
      exact (congrArg (withOperand · op s (body s)) hv).trans (hb s rfl)⟩

theorem readsEngineOnly_execRotl32 (n : BitVec 5) (a : Word) :
    ReadsEngineOnly Opcode.rotl32.toByte (execRotl32 n a) := by
  unfold execRotl32
  split
  · exact readsEngineOnly_raise _ _
  · exact readsEngineOnly_complete .rotl32 id fun _ => _

theorem readsEngineOnly_execBuild (counter : Word) (key nonce : List Byte) :
    ReadsEngineOnly Opcode.build.toByte (execBuild counter key nonce) := by
  unfold execBuild
  split
  · exact readsEngineOnly_raise _ _
  · exact readsEngineOnly_complete .build (·.writeState _) fun _ => _

theorem readsEngineOnly_execBlock (t : Bool) : ReadsEngineOnly Opcode.block.toByte (execBlock t) := by
  refine readsEngineOnly_withOperand (·.state) .block fun b => ?_
  cases t
  · exact readsEngineOnly_complete .block (·.writeOut _) fun _ => _
  · exact readsEngineOnly_complete .block (·.writeOut _) fun _ => _

theorem readsEngineOnly_execXors (kslen : BitVec 7) (w : Bool) (data : List Byte) :
    ReadsEngineOnly Opcode.xors.toByte (execXors kslen w data) := by
  unfold execXors
  split
  · exact readsEngineOnly_raise _ _
  split
  · exact readsEngineOnly_raise _ _
  · refine readsEngineOnly_withOperand (·.ks) .xors fun k => ?_
    split
    · exact readsEngineOnly_raise _ _
    · split
      · exact readsEngineOnly_raise _ _
      · exact readsEngineOnly_complete .xors id fun _ => _

theorem readsEngineOnly_exec (i : Instr) : ReadsEngineOnly i.opcode.toByte (exec i) := by
  cases i with
  | add32 a b => exact readsEngineOnly_complete .add32 id fun _ => _
  | xor32 a b => exact readsEngineOnly_complete .xor32 id fun _ => _
  | rotl32 n a => exact readsEngineOnly_execRotl32 n a
  | qr a b c d => exact readsEngineOnly_complete .qr id fun _ => _
  | build counter key nonce => exact readsEngineOnly_execBuild counter key nonce
  | ldstate b => exact readsEngineOnly_complete .ldstate (·.writeState b) fun _ => _
  | rdstate =>
    exact readsEngineOnly_withOperand (·.state) .rdstate fun b => readsEngineOnly_complete .rdstate id fun _ => _
  | block t => exact readsEngineOnly_execBlock t
  | rdout => exact readsEngineOnly_withOperand (·.out) .rdout fun b => readsEngineOnly_complete .rdout id fun _ => _
  | serial =>
    exact readsEngineOnly_withOperand (·.out) .serial fun b =>
      readsEngineOnly_complete .serial (·.writeKs (serializeLe b)) fun _ => pack (serializeLe b).toList
  | ldks k => exact readsEngineOnly_complete .ldks (·.writeKs k) fun _ => _
  | rdks => exact readsEngineOnly_withOperand (·.ks) .rdks fun k => readsEngineOnly_complete .rdks id fun _ => _
  | xors kslen w data => exact readsEngineOnly_execXors kslen w data
  | rdstatus => exact readsEngineOnly_complete .rdstatus id fun e => [e.status]

/-- A packet too reads the engine only, and its OPC is echoed as received (R86). -/
theorem readsEngineOnly_runPacket (p : Packet) : ReadsEngineOnly (opcField p.header) (runPacket p) := by
  unfold runPacket
  split
  · exact readsEngineOnly_raise _ _
  · rename_i i hd
    obtain ⟨op, ho, -, rfl⟩ := decode_ok hd
    have h := readsEngineOnly_exec (readOperands op p.header p.payload)
    rwa [readOperands_opcode, ho] at h

/-! ## Runs over a stream of packets (R63, R277) -/

theorem Machine.statusWord_opc (n : Nat) (opc : Byte) (c : Code) :
    (statusWord n opc c).extractLsb' 8 8 = opc := by
  ext i hi
  simp only [BitVec.getElem_extractLsb']
  refine (append_bit_hi rfl (BitVec.ofNat 16 n ++ opc) c.toByte _ (by omega)).trans
    ((append_bit_lo rfl (BitVec.ofNat 16 n) opc _ (by omega)).trans ?_)
  simp [hi]

theorem Machine.respond_opc (opc : Byte) (c : Code) (r : List Word) :
    (respond opc c r).status.extractLsb' 8 8 = opc := by
  cases c <;> exact statusWord_opc _ _ _

theorem run_succ_of_step {s t : State} (h : step s = .next t) (n : Nat) :
    Host.Core.run core (n + 1) s = Host.Core.run core n t := by
  have hc : core.step s = .next t := h
  simp only [Host.Core.run, hc]

theorem run_one (s : State) : Host.Core.run core 1 s = step s := by
  have hc : core.step s = step s := rfl
  simp only [Host.Core.run, hc]
  cases step s <;> rfl

/-- A run of m steps that ends in t goes on from t. -/
theorem run_add {m : Nat} {s t : State} (h : Host.Core.run core m s = .next t) (n : Nat) :
    Host.Core.run core (m + n) s = Host.Core.run core n t := by
  induction m generalizing s with
  | zero =>
    cases h
    rw [Nat.zero_add]
  | succ m ih =>
    cases hs : step s with
    | next u =>
      rw [run_succ_of_step hs] at h
      rw [Nat.add_right_comm, run_succ_of_step hs, ih h]
    | fault r => cases r
    | refused r =>
      have hc : core.step s = .refused r := hs
      simp only [Host.Core.run, hc] at h
      cases h

/-- The run over the packets at the front of a stream takes them and answers each of them, in order, and what it does
depends on neither the rest of the stream nor the responses sent before. -/
theorem run_packets (cs : List Packet) (e : Engine) :
    ∃ (e' : Engine) (rs : List Response),
      rs.map (fun r => r.status.extractLsb' 8 8) = cs.map (fun p => p.header.extractLsb' 0 8)
        ∧ ∀ (rest : List HostInput) (sent : List Response),
          Host.Core.run core cs.length { engine := e, pending := cs.map .packet ++ rest, responses := sent }
            = .next { engine := e', pending := rest, responses := sent ++ rs } := by
  induction cs generalizing e with
  | nil => exact ⟨e, [], rfl, fun rest sent => by rw [List.append_nil]; rfl⟩
  | cons p cs ih =>
    obtain ⟨e₁, c, r, hp⟩ := readsEngineOnly_runPacket p e
    obtain ⟨e', rs, hopc, hrun⟩ := ih (e₁.record (opcField p.header) c)
    refine ⟨e', respond (opcField p.header) c r :: rs, ?_, fun rest sent => ?_⟩
    · rw [List.map_cons, List.map_cons, hopc, respond_opc]
      rfl
    · have hstep := (step_packet (s := ⟨e, (p :: cs).map .packet ++ rest, sent⟩) rfl).trans (hp _ rfl)
      rw [List.length_cons, run_succ_of_step hstep]
      exact (hrun rest _).trans (by rw [List.append_assoc]; rfl)

/-- Settles O54: the run over the whole stream. -/
theorem runAnswersEveryPacket : Obligations.RunAnswersEveryPacket := by
  intro cs s hs
  obtain ⟨e', rs, hopc, hrun⟩ := run_packets cs s.engine
  have h := hrun [] s.responses
  rw [List.append_nil, ← hs] at h
  exact ⟨_, rs, h, rfl, rfl, by simpa using congrArg List.length hopc, hopc⟩

/-- Settles O55: the run over the first packets is the same whether or not d is still to come, and the last step runs
d. -/
theorem runIsSequential : Obligations.RunIsSequential := by
  intro cs d s t h
  obtain ⟨e', rs, -, hrun⟩ := run_packets cs s.engine
  have hcs := hrun [] s.responses
  rw [List.append_nil, h] at hcs
  cases hcs
  rw [List.map_append, run_add (hrun _ _), run_one]
  rfl

/-! ## Read commands (R60, R220) -/

theorem Machine.Engine.record_record (e : Engine) (opc : Byte) (c : Code) :
    (e.record opc c).record opc c = e.record opc c := by
  simp only [Engine.record, Bool.or_assoc, Bool.or_self]

/-- A command that answers the words of one register leaves the engine as it is; its code and its words depend on the
register alone (R240). -/
theorem withOperand_read {α : Type} (reg : Option α) (op : Opcode) (f : α → List Word) :
    ∃ c r, ∀ s : State, withOperand reg op s (fun v => .next (s.complete s.engine op (f v)))
      = .next (s.finish s.engine op.toByte c r) := by
  cases reg with
  | none => exact ⟨.operandNotWritten, [], fun _ => rfl⟩
  | some v => exact ⟨.ok, f v, fun _ => rfl⟩

/-- RDSTATE, RDOUT and RDKS leave the engine as it is, and answer alike wherever the data registers are the same. -/
theorem exec_register_read {i : Instr} (hi : i.opcode ∈ [Opcode.rdstate, .rdout, .rdks]) (e : Engine) :
    ∃ c r, ∀ s : State, s.engine.state = e.state → s.engine.out = e.out → s.engine.ks = e.ks →
      exec i s = .next (s.finish s.engine i.opcode.toByte c r) := by
  cases i with
  | rdstate =>
    obtain ⟨c, r, h⟩ := withOperand_read e.state .rdstate Vector.toList
    exact ⟨c, r, fun s hs _ _ => (congrArg (withOperand · .rdstate s _) hs).trans (h s)⟩
  | rdout =>
    obtain ⟨c, r, h⟩ := withOperand_read e.out .rdout Vector.toList
    exact ⟨c, r, fun s _ ho _ => (congrArg (withOperand · .rdout s _) ho).trans (h s)⟩
  | rdks =>
    obtain ⟨c, r, h⟩ := withOperand_read e.ks .rdks fun k => pack k.toList
    exact ⟨c, r, fun s _ _ hk => (congrArg (withOperand · .rdks s _) hk).trans (h s)⟩
  | _ => simp [Instr.opcode] at hi

theorem exec_rdstatus (s : State) : exec .rdstatus s = .next (s.complete s.engine .rdstatus [s.engine.status]) :=
  rfl

theorem Instr.eq_rdstatus_of_opcode {i : Instr} (h : i.opcode = .rdstatus) : i = .rdstatus := by
  cases i with
  | rdstatus => rfl
  | _ => cases h

/-- Settles O56: a read leaves the engine but for the STATUS update, which is the same the second time. The answer of
RDSTATUS is read from the engine before the update, so it settles one command later. -/
theorem readsRepeat : Obligations.ReadsRepeat := by
  intro i s t u hi hst htu
  by_cases hop : i.opcode = .rdstatus
  · obtain rfl := Instr.eq_rdstatus_of_opcode hop
    cases (exec_rdstatus s).symm.trans hst
    cases (exec_rdstatus _).symm.trans htu
    refine ⟨rfl, rfl, rfl, Engine.record_record _ _ _, fun h => absurd rfl h, fun _ => ⟨_, _, rfl, rfl, ?_⟩⟩
    simp only [State.complete_responses, State.complete_engine, Engine.record_record]
  · have hreg : i.opcode ∈ [Opcode.rdstate, .rdout, .rdks] := by simpa [hop] using hi
    obtain ⟨c, r, hread⟩ := exec_register_read hreg s.engine
    cases (hread s rfl rfl rfl).symm.trans hst
    cases (hread (s.finish s.engine i.opcode.toByte c r) rfl rfl rfl).symm.trans htu
    exact ⟨rfl, rfl, rfl, Engine.record_record _ _ _, fun _ => ⟨_, rfl, rfl⟩, fun h => absurd h hop⟩

/-! ## What XORS reads of KS (R58, R200) -/

/-- XORS leaves the engine as it is, and its answer depends on no more of the state than the first KSLEN bytes of
KS. -/
theorem exec_xors_of_keystream (kslen : BitVec 7) (w : Bool) (data ks : List Byte) :
    ∃ c r, ∀ (s : State) (k : KeyBytes), s.engine.ks = some k → k.toList.take kslen.toNat = ks →
      exec (.xors kslen w data) s = .next (s.finish s.engine Opcode.xors.toByte c r) := by
  simp only [exec, execXors]
  split
  · exact ⟨.fieldOutOfRange, [], fun _ _ _ _ => rfl⟩
  split
  · exact ⟨.invalidKeystreamLength, [], fun _ _ _ _ => rfl⟩
  split
  · exact ⟨.dataExceedsKeystream, [], fun s k hk _ => by rw [hk]; rfl⟩
  cases hx : xorStream data ks with
  | error c => exact ⟨c, [], fun s k hk ht => by rw [hk, withOperand_some, ht, hx]; rfl⟩
  | ok r => exact ⟨.ok, pack r, fun s k hk ht => by rw [hk, withOperand_some, ht, hx]; rfl⟩

theorem take_toList_congr {k k' : KeyBytes} {n : Nat}
    (h : ∀ j, j < n → k.toList.getD j 0 = k'.toList.getD j 0) : k.toList.take n = k'.toList.take n := by
  refine List.ext_getElem (by simp) fun j hj hj' => ?_
  rw [List.getElem_take, List.getElem_take, List.getElem_eq_getD 0, List.getElem_eq_getD 0]
  exact h j (List.length_take_le n _ |>.trans_lt' hj)

/-- Settles O58: both states hold the same first KSLEN bytes. -/
theorem xorsReadsOnlyItsKeystream : Obligations.XorsReadsOnlyItsKeystream := by
  intro s k k' kslen w data h
  obtain ⟨c, r, hx⟩ := exec_xors_of_keystream kslen w data (k.toList.take kslen.toNat)
  exact ⟨s.engine.record Opcode.xors.toByte c, respond Opcode.xors.toByte c r, hx _ k rfl rfl,
    hx _ k' rfl (take_toList_congr h).symm⟩

end Sys2Proof
end

section
/-! PROOFS of the family 30_encoding: words written out against the decoder, the assembler's examples, and ENCRYPTN
(30_encoding.md R82 to R92, 70_reset_and_hazards.md R270, R271). With them the facts they need: the packet of a
command's line, a command run from its own packet, and the commands of a list of encryptions. -/

namespace Sys2Proof

open Machine

/-! ## Packets written out (R82, R84, R87, R88) -/

/-- Settles O23: four of the packets are those of their commands, the XORS packet has padding to drop, and no row of the
map has the OPC 0x05. -/
theorem decodeSanity : Obligations.DecodeSanity := by
  refine ⟨decodeEncode (.add32 0xFFFFFFFF 1) rfl, decodeEncode (.rotl32 31 1) rfl, decodeEncode (.block true) rfl,
    ?_, decodeEncode .rdstatus rfl, ?_⟩
  · decide
  · decide

/-! ## The assembler's examples (R90, R91) -/

/-- The line of an encodable command assembles to the command's packet. -/
theorem assembleLine_of_lineCommand {line : List Char} {i : Instr} (h : lineCommand line = some i)
    (hi : i.wellFormed = true) : assembleLine line = some (encode i) := by
  simp only [assembleLine, h, Option.bind_some, assemble, hi, if_true]

/-- The engine performs an encodable command that the host sends as the command's packet (R86). -/
theorem onPacket_encode {i : Instr} (hi : i.wellFormed = true) (s : State) :
    onPacket s (encodeHeader i) (encodePayload i) = exec i s :=
  (onPacket_eq_runPacket _ _ _).trans (runPacket_of_decode (decodeEncode i hi) s)

theorem exec_rotl32 {n : BitVec 5} (hn : n ≠ 0) (a : Word) (s : State) :
    exec (.rotl32 n a) s = .next (s.complete s.engine .rotl32 [rotl32 a n.toNat]) :=
  if_neg hn

theorem exec_block_traced {s : State} {b : Words16} (hb : s.engine.state = some b) :
    exec (.block true) s = .next (s.complete (s.engine.writeOut (blockTraced b).1) .block
      ((blockTraced b).1.toList ++ encodeTrace (blockTraced b).2)) := by
  simp only [exec, execBlock, hb, withOperand_some, if_true]

/-- The 16 words of OUT and the 2940 words of the trace (R174, R176). -/
theorem blockTraced_result_length (b : Words16) :
    ((blockTraced b).1.toList ++ encodeTrace (blockTraced b).2).length = 2956 := by
  rw [List.length_append, Vector.length_toList, encodeTrace_blockTraced_length]

/-- Settles O24: each line reads as a command, whose packet is the one given and which the engine performs. -/
theorem assemblerExamples : Obligations.AssemblerExamples := by
  refine ⟨assembleLine_of_lineCommand (i := .rotl32 1 0x80000000) (by decide) rfl, fun s => ?_,
    assembleLine_of_lineCommand (i := .block true) (by decide) rfl, fun s b hb => ?_,
    _, assembleLine_of_lineCommand (i := .xors 15 false [0x48, 0x65, 0x6c, 0x6c, 0x6f, 0x20, 0x43, 0x68, 0x61,
      0x43, 0x68, 0x61, 0x32, 0x30, 0x21]) (by decide) rfl, rfl, rfl⟩
  · refine ⟨_, (onPacket_encode (i := .rotl32 1 0x80000000) rfl s).trans (exec_rotl32 (by decide) _ s), ?_⟩
    rfl
  · refine ⟨_, _, (onPacket_encode (i := .block true) rfl s).trans (exec_block_traced hb), ?_,
      blockTraced_result_length b⟩
    rw [State.complete_responses, respond_ok, blockTraced_result_length]
    rfl

/-! ## ENCRYPTN (R92, R270, R271) -/

/-- The first n chunks joined are the first 64n bytes. -/
theorem flatMap_chunk_range (data : List Byte) (n : Nat) :
    (List.range n).flatMap (chunk data) = data.take (64 * n) := by
  induction n with
  | zero => rfl
  | succ n ih =>
    rw [List.range_succ, List.flatMap_append, List.flatMap_singleton, ih, Nat.mul_succ, List.take_add]
    rfl

/-- All chunks joined are the data. -/
theorem flatMap_chunk_chunkCount (data : List Byte) :
    (List.range (chunkCount data)).flatMap (chunk data) = data := by
  rw [flatMap_chunk_range, List.take_of_length_le (by rw [chunkCount]; omega)]

/-- ENCRYPTN is refused exactly when it has a last counter and that counter would pass 0xFFFFFFFF. -/
theorem expand_encryptN_eq_none_iff (key : List Byte) (counter : Word) (nonce data : List Byte) :
    (Pseudo.encryptN key counter nonce data).expand = none
      ↔ data ≠ [] ∧ 0xFFFFFFFF < counter.toNat + chunkCount data - 1 := by
  have hc : counter.toNat < 2 ^ 32 := counter.isLt
  have hd : data ≠ [] ↔ 0 < chunkCount data := by rw [← List.length_pos_iff, chunkCount]; omega
  simp only [Pseudo.expand, ite_eq_right_iff, reduceCtorEq, imp_false, hd]
  omega

/-- The commands that ENCRYPTN expands to, and the bound under which it is taken. -/
theorem expand_encryptN_eq_some {key nonce data : List Byte} {counter : Word} {is : List Instr}
    (h : (Pseudo.encryptN key counter nonce data).expand = some is) :
    counter.toNat + chunkCount data ≤ 2 ^ 32 ∧ is = encryptNCommands key counter nonce data := by
  simp only [Pseudo.expand] at h
  split at h
  · exact ⟨‹_›, (Option.some.inj h).symm⟩
  · cases h

section
variable (key nonce : List Byte) (counter : Word) (data : List Byte)

/-- Encryptions one after another keep the order BUILD, BLOCK, SERIAL, XORS (R270). -/
theorem oneBlockPerXors_flatMap_encryptCommands (ctr : Nat → Word) (d : Nat → List Byte) (js : List Nat) :
    oneBlockPerXors (js.flatMap fun i => encryptCommands key (ctr i) nonce (d i)) = true := by
  induction js with
  | nil => rfl
  | cons j js ih => exact ih

/-- Each encryption has one BUILD, with its own counter. -/
theorem builds_flatMap_encryptCommands (ctr : Nat → Word) (d : Nat → List Byte) (js : List Nat) :
    builds (js.flatMap fun i => encryptCommands key (ctr i) nonce (d i))
      = js.map fun i => (key, ctr i, nonce) := by
  induction js with
  | nil => rfl
  | cons j js ih => exact congrArg (List.cons _) ih

theorem withinKeystream_encryptNCommands :
    ∀ i ∈ encryptNCommands key counter nonce data, withinKeystream i = true := by
  intro i hi
  obtain ⟨j, -, hj⟩ := List.mem_flatMap.mp hi
  have hl : (chunk data j).length ≤ 64 := List.length_take_le _ _
  simp only [encryptCommands, keystreamCommands, List.cons_append, List.nil_append, List.mem_cons,
    List.not_mem_nil, or_false] at hj
  obtain rfl | rfl | rfl | rfl := hj
  · rfl
  · rfl
  · rfl
  · exact decide_eq_true hl

/-- A counter that does not pass 0xFFFFFFFF is counted up without a wrap (R271). -/
theorem toNat_counter_add {i : Nat} (h : counter.toNat + i < 2 ^ 32) :
    (counter + BitVec.ofNat 32 i).toNat = counter.toNat + i := by
  rw [BitVec.toNat_add, BitVec.toNat_ofNat, Nat.add_mod_mod, Nat.mod_eq_of_lt h]

theorem countersRise_encryptNCommands (h : counter.toNat + chunkCount data ≤ 2 ^ 32) :
    countersRise (encryptNCommands key counter nonce data) := by
  rw [countersRise, encryptNCommands, builds_flatMap_encryptCommands, List.pairwise_map]
  refine List.pairwise_lt_range.imp_of_mem fun {i j} hi hj hij _ _ => ?_
  rw [List.mem_range] at hi hj
  rw [toNat_counter_add counter (by omega), toNat_counter_add counter (by omega)]
  omega

/-- ENCRYPTN's commands meet the host's duties where its counters do not pass 0xFFFFFFFF. -/
theorem hostDuty_encryptNCommands (h : counter.toNat + chunkCount data ≤ 2 ^ 32) :
    hostDuty (encryptNCommands key counter nonce data) :=
  ⟨oneBlockPerXors_flatMap_encryptCommands key nonce _ _ _, withinKeystream_encryptNCommands key nonce counter data,
    countersRise_encryptNCommands key nonce counter data h⟩

end

/-- Settles O60: the commands are those of `encryptNCommands`, with the counter written as a number; the data of its
XORS commands are the chunks. -/
theorem encryptNMeetsTheHostDuties : Obligations.EncryptNMeetsTheHostDuties := by
  intro key counter nonce data
  refine ⟨expand_encryptN_eq_none_iff key counter nonce data, fun is h => ?_⟩
  obtain ⟨hc, rfl⟩ := expand_encryptN_eq_some h
  refine ⟨?_, hostDuty_encryptNCommands key nonce counter data hc, ?_⟩
  · simp only [BitVec.ofNat_add, BitVec.ofNat_toNat, BitVec.setWidth_eq]
    rfl
  · rw [encryptNCommands, List.flatMap_assoc]
    simpa [encryptCommands, keystreamCommands] using flatMap_chunk_chunkCount data

end Sys2Proof
end

section
/-! PROOFS of the family 40_word_arith: the three word operations, and ADD32, XOR32 and ROTL32 on commands and on
packets (40_word_arith.md R100 to R110); with them the operand values that ROTL32, BUILD and XORS refuse. First the
facts that every command's packets share: how a packet whose OPC is a command's ends. -/

namespace Sys2Proof

open Machine

/-! ## The endings of a command, read from its outcome (R85, R232, R234) -/

section
variable {o : Host.Outcome State Fault Refusal} {s : State} {c : Code} {opc : Byte}

theorem completes_of_complete {e : Engine} {op : Opcode} {r : List Word} (h : o = .next (s.complete e op r)) :
    Completes o s e op.toByte r :=
  h ▸ completes_complete s e op r

theorem endsInFault_of_raise (h : o = .next (s.raise opc c)) (hc : c.isCommandFault = true) :
    EndsInFault o s opc c.toByte :=
  h ▸ endsInFault_raise s opc hc

theorem endsInError_of_raise (h : o = .next (s.raise opc c)) (hc : c.isInputError = true) :
    EndsInError o s opc c.toByte :=
  h ▸ endsInError_raise s opc hc

end

/-! ## A packet whose OPC is a command's (R86) -/

theorem badPayloadCode_eq_malformedPacket {op : Opcode} {h : Word} (hr : op = .rotl32 → nField h ≠ 0)
    (hx : op ≠ .xors) : badPayloadCode op h = .malformedPacket :=
  (if_neg fun hn => hr hn.1 hn.2).trans (if_neg fun hk => hx hk.1)

theorem badPayloadCode_rotl32_zero {h : Word} (hn : nField h = 0) :
    badPayloadCode .rotl32 h = .invalidRotateAmount :=
  if_pos ⟨rfl, hn⟩

section
variable {op : Opcode} {h : Word} (s : State) {p : List Word} (ho : opcField h = op.toByte)
include ho

theorem onPacket_of_reserved (hr : h &&& op.format.rsvdMask ≠ 0) :
    onPacket s h p = .next (s.raise op.toByte .reservedFieldNonzero) := by
  rw [onPacket_eq_runPacket, runPacket, decode_of_opcField ho, if_pos hr, ho]

theorem onPacket_of_wrong_length (hr : h &&& op.format.rsvdMask = 0) (hl : p.length ≠ plenOf op h) :
    onPacket s h p = .next (s.raise op.toByte (badPayloadCode op h)) := by
  rw [onPacket_eq_runPacket, runPacket, decode_of_opcField ho, if_neg (not_not.mpr hr), if_pos hl, ho]

theorem onPacket_of_accepted (hr : h &&& op.format.rsvdMask = 0) (hl : p.length = plenOf op h) :
    onPacket s h p = exec (readOperands op h p) s := by
  rw [onPacket_eq_runPacket, runPacket, decode_of_opcField ho, if_neg (not_not.mpr hr), if_neg (not_not.mpr hl)]

theorem endsInFault_of_reserved (hr : h &&& op.format.rsvdMask ≠ 0) :
    EndsInFault (onPacket s h p) s op.toByte 0x81 :=
  endsInFault_of_raise (onPacket_of_reserved s ho hr) rfl

theorem endsInFault_of_malformed (hr : h &&& op.format.rsvdMask = 0) (hl : p.length ≠ plenOf op h)
    (hn : op = .rotl32 → nField h ≠ 0) (hx : op ≠ .xors) : EndsInFault (onPacket s h p) s op.toByte 0x84 :=
  endsInFault_of_raise (badPayloadCode_eq_malformedPacket hn hx ▸ onPacket_of_wrong_length s ho hr hl) rfl

end

/-! ## Addition and exclusive OR (R100 to R105) -/

/-- Settles O1: the model's sum is the sum of bit vectors. -/
theorem add32IsTheSumModulo : Obligations.Add32IsTheSumModulo :=
  fun a b c => ⟨BitVec.toNat_add a b, BitVec.add_comm a b, BitVec.add_assoc a b c, BitVec.add_zero a, by decide⟩

/-- Settles O2: the model's exclusive OR is that of bit vectors. -/
theorem xor32IsBitwise : Obligations.Xor32IsBitwise :=
  fun a b c => ⟨fun _ _ => BitVec.getLsbD_xor, BitVec.xor_self, BitVec.xor_zero, BitVec.xor_comm a b,
    BitVec.xor_assoc a b c⟩

/-! ## Rotation (R108, R109) -/

theorem rotl32_eq_rotateLeft (a : Word) {n : Nat} (hn : n < 32) : rotl32 a n = a.rotateLeft n :=
  (BitVec.rotateLeft_eq_rotateLeftAux_of_lt hn).symm

theorem toNat_rotl32 (a : Word) (n : Nat) :
    (rotl32 a n).toNat = (a.toNat * 2 ^ n) % 2 ^ 32 ||| a.toNat / 2 ^ (32 - n) := by
  simp only [rotl32, BitVec.toNat_or, BitVec.toNat_shiftLeft, BitVec.toNat_ushiftRight, Nat.shiftLeft_eq,
    Nat.shiftRight_eq_div_pow]

/-- Bit i comes from bit i - n; the n low bits come from the n high bits. -/
theorem getLsbD_rotl32 (a : Word) {n i : Nat} (hn : n < 32) (hi : i < 32) :
    (rotl32 a n).getLsbD i = a.getLsbD ((i + (32 - n)) % 32) := by
  rw [rotl32_eq_rotateLeft a hn, BitVec.getLsbD_rotateLeft, Nat.mod_eq_of_lt hn]
  by_cases h : i < n
  · simp [h, show (i + (32 - n)) % 32 = 32 - n + i by omega]
  · simp [h, hi, show (i + (32 - n)) % 32 = i - n by omega]

/-- The numbers below w, shifted cyclically, are the numbers below w. -/
theorem map_add_mod_range_perm (w m : Nat) : ((List.range w).map fun i => (i + m) % w).Perm (List.range w) := by
  have hrot : ((List.range w).map fun i => (i + m) % w) = (List.range w).rotate m :=
    List.ext_getElem (by simp) fun i _ _ => by simp [List.getElem_rotate]
  exact hrot ▸ List.rotate_perm _ _

/-- Rotating by n and then by the rest of the word moves every bit once around. -/
theorem rotl32_rotl32_sub (a : Word) {n : Nat} (h0 : 0 < n) (hn : n < 32) :
    rotl32 (rotl32 a n) (32 - n) = a := by
  refine BitVec.eq_of_getLsbD_eq fun i hi => ?_
  rw [getLsbD_rotl32 _ (by omega) hi, getLsbD_rotl32 _ hn (Nat.mod_lt _ (by decide))]
  congr 1; omega

/-- A rotation permutes the bits, so it keeps the number of 1 bits. -/
theorem countP_rotl32 (a : Word) {n : Nat} (hn : n < 32) :
    (List.range 32).countP (rotl32 a n).getLsbD = (List.range 32).countP a.getLsbD :=
  calc (List.range 32).countP (rotl32 a n).getLsbD
    _ = (List.range 32).countP (a.getLsbD ∘ fun i => (i + (32 - n)) % 32) :=
      List.countP_congr fun i hi => by rw [getLsbD_rotl32 a hn (List.mem_range.mp hi)]; rfl
    _ = ((List.range 32).map fun i => (i + (32 - n)) % 32).countP a.getLsbD := List.countP_map.symm
    _ = (List.range 32).countP a.getLsbD := (map_add_mod_range_perm _ _).countP_eq _

/-- A word whose bits are all equal is a fixed point of every rotation. -/
theorem rotl32_eq_self_of_bits {a : Word} {v : Bool} (ha : ∀ i, i < 32 → a.getLsbD i = v) {n : Nat} (hn : n < 32) :
    rotl32 a n = a :=
  BitVec.eq_of_getLsbD_eq fun i hi => by
    rw [getLsbD_rotl32 a hn hi, ha i hi, ha _ (Nat.mod_lt _ (by decide))]

/-- Settles O3: the rotation on numbers and bit by bit. -/
theorem rotl32MovesBits : Obligations.Rotl32MovesBits :=
  fun a n _ hn => ⟨toNat_rotl32 a n, fun _ hi => getLsbD_rotl32 a hn hi⟩

/-- Settles O4: all four laws follow from where a rotation takes a bit from. -/
theorem rotl32Laws : Obligations.Rotl32Laws :=
  ⟨by decide, fun a _ h0 hn => ⟨rotl32_rotl32_sub a h0 hn, countP_rotl32 a hn,
    rotl32_eq_self_of_bits (v := false) (fun _ _ => BitVec.getLsbD_zero) hn,
    rotl32_eq_self_of_bits (v := true) (by decide) hn⟩⟩

/-! ## The word commands (R102, R106, R110, R124) -/

theorem exec_rotl32_zero (a : Word) (s : State) :
    exec (.rotl32 0 a) s = .next (s.raise Opcode.rotl32.toByte .invalidRotateAmount) :=
  rfl

theorem completes_exec_rotl32 {n : BitVec 5} (hn : n ≠ 0) (a : Word) (s : State) :
    Completes (exec (.rotl32 n a) s) s s.engine 0x03 [a.rotateLeft n.toNat] := by
  rw [← rotl32_eq_rotateLeft a n.isLt]
  exact completes_of_complete (exec_rotl32 hn a s)

/-- Settles O35, command by command. -/
theorem wordCommandsComplete : Obligations.WordCommandsComplete :=
  fun s a _ _ _ _ => ⟨completes_complete s s.engine .add32 _, completes_complete s s.engine .xor32 _,
    fun hn => completes_exec_rotl32 hn a s, completes_complete s s.engine .qr _⟩

/-- A command of two words and no header field, which answers the word g of them: on a packet with its OPC, code 0x81
for a reserved bit, else 0x84 unless there are two words, else the answer. -/
theorem two_word_packet {op : Opcode} (hf : op.format = .f0) (hl : ∀ h, plenOf op h = 2)
    {g : Word → Word → Word}
    (hg : ∀ h a b s, exec (readOperands op h [a, b]) s = .next (s.complete s.engine op [g a b]))
    (s : State) (f : BitVec 24) (p : List Word) :
    if f ≠ 0 then EndsInFault (onPacket s (f ++ op.toByte) p) s op.toByte 0x81
    else match p with
      | [a, b] => Completes (onPacket s (f ++ op.toByte) p) s s.engine op.toByte [g a b]
      | _ => EndsInFault (onPacket s (f ++ op.toByte) p) s op.toByte 0x84 := by
  have ho := opcField_append f op.toByte
  have hr := reserved_f0 f op.toByte
  rw [← hf] at hr
  split_ifs with h0
  · exact endsInFault_of_reserved s ho (mt hr.mp h0)
  · have hr0 := hr.mpr (not_not.mp h0)
    split
    next a b =>
      have hp : [a, b].length = plenOf op (f ++ op.toByte) := (hl _).symm
      exact completes_of_complete ((onPacket_of_accepted s ho hr0 hp).trans (hg _ a b s))
    next h2 =>
      refine endsInFault_of_malformed s ho hr0 (fun hp => ?_) (by rintro rfl; cases hf) (by rintro rfl; cases hf)
      obtain ⟨a, b, rfl⟩ := List.length_eq_two.mp (hp.trans (hl _))
      exact h2 a b rfl

/-- Settles O25: both are commands of two words and no header field. -/
theorem add32AndXor32Packets : Obligations.Add32AndXor32Packets :=
  fun s f p => ⟨two_word_packet (op := .add32) rfl (fun _ => rfl) (fun _ _ _ _ => rfl) s f p,
    two_word_packet (op := .xor32) rfl (fun _ => rfl) (fun _ _ _ _ => rfl) s f p⟩

/-- ROTL32 by 0 ends with 0x82 whatever the payload: for one word the command raises the code, for any other number
of words the decoder does. -/
theorem onPacket_rotl32_zero (s : State) {h : Word} (ho : opcField h = Opcode.rotl32.toByte)
    (hr : h &&& Format.fr.rsvdMask = 0) (hn : nField h = 0) (p : List Word) :
    onPacket s h p = .next (s.raise Opcode.rotl32.toByte .invalidRotateAmount) := by
  by_cases hl : p.length = plenOf .rotl32 h
  · rw [onPacket_of_accepted s ho hr hl, readOperands, hn, exec_rotl32_zero]
  · rw [onPacket_of_wrong_length s ho hr hl, badPayloadCode_rotl32_zero hn]

/-- Settles O26: the checks in their order. -/
theorem rotl32Packets : Obligations.Rotl32Packets := by
  intro s f n p
  have ho : opcField (f ++ n ++ 0x03#8) = Opcode.rotl32.toByte := opcField_append _ _
  have hr := reserved_fr f n 0x03#8
  have hn := nField_append f n 0x03#8
  split_ifs with hf h0
  · exact endsInFault_of_reserved s ho (mt hr.mp hf)
  · exact endsInFault_of_raise (onPacket_rotl32_zero s ho (hr.mpr (not_not.mp hf)) (hn.trans h0) p) rfl
  · have hr0 := hr.mpr (not_not.mp hf)
    split
    next a =>
      rw [onPacket_of_accepted s ho hr0 rfl, readOperands, hn]
      exact completes_exec_rotl32 h0 a s
    next h1 =>
      refine endsInFault_of_malformed s ho hr0 (fun hp => ?_) (fun _ => hn.trans_ne h0) (by decide)
      obtain ⟨a, rfl⟩ := List.length_eq_one_iff.mp hp
      exact h1 a rfl

/-! ## The operand values that BUILD and XORS refuse (R144, R200) -/

theorem buildState_of_key_length {key : List Byte} (hk : key.length ≠ 32) (counter : Word) (nonce : List Byte) :
    buildState key counter nonce = .error .invalidKeyLength :=
  if_pos hk

theorem buildState_of_nonce_length {key nonce : List Byte} (hk : key.length = 32) (hn : nonce.length ≠ 12)
    (counter : Word) : buildState key counter nonce = .error .invalidNonceLength :=
  (if_neg (not_not.mpr hk)).trans (if_pos hn)

theorem exec_build_of_error {key nonce : List Byte} {counter : Word} {c : Code}
    (h : buildState key counter nonce = .error c) (s : State) :
    exec (.build counter key nonce) s = .next (s.raise Opcode.build.toByte c) := by
  simp only [exec, execBuild, h]

theorem exec_xors_of_kslen_over {kslen : BitVec 7} (h : 64 < kslen.toNat) (w : Bool) (data : List Byte) (s : State) :
    exec (.xors kslen w data) s = .next (s.raise Opcode.xors.toByte .fieldOutOfRange) :=
  if_pos h

theorem exec_xors_kslen_zero (w : Bool) (data : List Byte) (s : State) :
    exec (.xors 0 w data) s = .next (s.raise Opcode.xors.toByte .invalidKeystreamLength) :=
  rfl

theorem exec_xors_of_excess_data {kslen : BitVec 7} {data : List Byte} {s : State} (h1 : 1 ≤ kslen.toNat)
    (h64 : kslen.toNat ≤ 64) (hks : s.engine.ks ≠ none) (hd : kslen.toNat < data.length) :
    exec (.xors kslen false data) s = .next (s.raise Opcode.xors.toByte .dataExceedsKeystream) := by
  obtain ⟨k, hk⟩ := Option.ne_none_iff_exists'.mp hks
  have h0 : kslen ≠ 0 := by rintro rfl; exact absurd h1 (by decide)
  rw [exec, execXors, if_neg (by omega), if_neg h0, hk, withOperand_some, if_pos ⟨rfl, hd⟩]

/-- Settles O43, each refused value by what its command does on it. -/
theorem refusedOperandValues : Obligations.RefusedOperandValues := by
  intro s
  refine ⟨fun a => ?rotl32, fun counter key nonce hk => ?key, fun counter key nonce hk hn => ?nonce,
    fun kslen w data h => ?kslenOver, fun w data => ?kslenZero, fun kslen data h1 h64 hks hd => ?excess⟩
  case rotl32 => exact endsInFault_of_raise (exec_rotl32_zero a s) rfl
  case key => exact endsInError_of_raise (exec_build_of_error (buildState_of_key_length hk counter nonce) s) rfl
  case nonce => exact endsInError_of_raise (exec_build_of_error (buildState_of_nonce_length hk hn counter) s) rfl
  case kslenOver => exact endsInFault_of_raise (exec_xors_of_kslen_over h w data s) rfl
  case kslenZero => exact endsInError_of_raise (exec_xors_kslen_zero w data s) rfl
  case excess => exact endsInError_of_raise (exec_xors_of_excess_data h1 h64 hks hd) rfl

end Sys2Proof
end

section
/-! PROOFS of the family 41_quarter_round: qr and its inverse, the in-place form, the double-round, and QR on packets
(41_quarter_round.md R120 to R124; 43_block_transform.md R162). The quarter-round is undone line by line, the
in-place form by the same reads and writes, and a phase group by group. -/

namespace Sys2Proof

open Machine

/-! ## qr and its inverse (R120, R121) -/

/-- Settles O5: the model's `qrLine` is one line of R120. -/
theorem qrFollowsItsLines : Obligations.QrFollowsItsLines :=
  fun _ _ _ _ => rfl

/-- A line of R120 undone, given the word y that the line keeps: the rotation and the exclusive OR first, since they
used the sum, then the sum. -/
def qrLineInv (x y z : Word) (n : Nat) : Word × Word := (x - y, xor32 (rotl32 z (32 - n)) x)

/-- The four lines of R120 undone, the last line first. -/
def qrInv (q : Quad) : Quad :=
  let (c, b) := qrLineInv q.c q.d q.b 7
  let (a, d) := qrLineInv q.a b q.d 8
  let (c, b) := qrLineInv c d b 12
  let (a, d) := qrLineInv a b d 16
  { a := a, b := b, c := c, d := d }

theorem xor32_xor32_cancel (a b : Word) : xor32 (xor32 a b) b = a := by
  simp only [xor32, BitVec.xor_assoc, BitVec.xor_self, BitVec.xor_zero]

section
variable (x y z : Word) {n : Nat} (h0 : 0 < n) (hn : n < 32)
include h0 hn

theorem qrLineInv_qrLine : qrLineInv (qrLine x y z n).1 y (qrLine x y z n).2 n = (x, z) := by
  have hx : add32 x y - y = x := BitVec.add_sub_cancel x y
  rw [qrLine, qrLineInv, hx, rotl32_rotl32_sub _ h0 hn, xor32_xor32_cancel]

theorem qrLine_qrLineInv : qrLine (qrLineInv x y z n).1 y (qrLineInv x y z n).2 n = (x, z) := by
  have hx : add32 (x - y) y = x := BitVec.sub_add_cancel x y
  have hz : rotl32 (rotl32 z (32 - n)) n = z := by
    have h := rotl32_rotl32_sub z (n := 32 - n) (by omega) (by omega)
    rwa [Nat.sub_sub_self hn.le] at h
  rw [qrLine, qrLineInv, hx, xor32_xor32_cancel, hz]

end

theorem qrInv_qr (q : Quad) : qrInv (qr q) = q := by
  simp only [qr, qrInv, qrLineInv_qrLine, Nat.reduceLT]

theorem qr_qrInv (q : Quad) : qr (qrInv q) = q := by
  simp only [qr, qrInv, qrLine_qrLineInv, Nat.reduceLT]

/-- Settles O6: `qrInv` is the inverse on both sides. -/
theorem qrIsABijection : Obligations.QrIsABijection :=
  ⟨by decide, Function.bijective_iff_has_inverse.mpr ⟨qrInv, qrInv_qr, qr_qrInv⟩⟩

/-! ## Reading and writing the words of an index group (R122) -/

theorem words16_ext {x y : Words16} (h : ∀ m : Fin 16, x[m] = y[m]) : x = y :=
  Vector.ext fun i hi => h ⟨i, hi⟩

/-- A word after the four writes: the last write to its index decides. -/
theorem getElem_writeQuad (x : Words16) (g : QuadIdx) (q : Quad) (m : Fin 16) :
    (writeQuad x g q)[m] =
      if g.l = m then q.d else if g.k = m then q.c else if g.j = m then q.b else if g.i = m then q.a else x[m] := by
  simp only [writeQuad, Fin.getElem_fin, Vector.getElem_set, Fin.val_inj]

theorem getElem_writeQuad_of_notMem (x : Words16) {g : QuadIdx} (q : Quad) {m : Fin 16}
    (hm : m ∉ [g.i, g.j, g.k, g.l]) : (writeQuad x g q)[m] = x[m] := by
  simp only [List.mem_cons, List.not_mem_nil, or_false, not_or] at hm
  obtain ⟨hi, hj, hk, hl⟩ := hm
  rw [getElem_writeQuad, if_neg (Ne.symm hl), if_neg (Ne.symm hk), if_neg (Ne.symm hj), if_neg (Ne.symm hi)]

theorem readQuad_writeQuad (x : Words16) {g : QuadIdx} (q : Quad) (hg : [g.i, g.j, g.k, g.l].Nodup) :
    readQuad (writeQuad x g q) g = q := by
  have hne : (g.i ≠ g.j ∧ g.i ≠ g.k ∧ g.i ≠ g.l) ∧ (g.j ≠ g.k ∧ g.j ≠ g.l) ∧ g.k ≠ g.l := by simpa using hg
  obtain ⟨⟨hij, hik, hil⟩, ⟨hjk, hjl⟩, hkl⟩ := hne
  simp only [readQuad, getElem_writeQuad, hij.symm, hik.symm, hil.symm, hjk.symm, hjl.symm, hkl.symm,
    if_true, if_false]

theorem writeQuad_writeQuad (x : Words16) (g : QuadIdx) (q r : Quad) :
    writeQuad (writeQuad x g q) g r = writeQuad x g r := by
  refine words16_ext fun m => ?_
  simp only [getElem_writeQuad]
  split_ifs <;> rfl

theorem writeQuad_readQuad (x : Words16) (g : QuadIdx) : writeQuad x g (readQuad x g) = x := by
  refine words16_ext fun m => ?_
  rw [getElem_writeQuad]
  split_ifs with hl hk hj hi
  · subst hl; rfl
  · subst hk; rfl
  · subst hj; rfl
  · subst hi; rfl
  · rfl

theorem readQuad_quarterRound (x : Words16) {g : QuadIdx} (hg : [g.i, g.j, g.k, g.l].Nodup) :
    readQuad (quarterRound x g) g = qr (readQuad x g) :=
  readQuad_writeQuad x _ hg

/-- Every group of R161 has four distinct indices. -/
theorem nodup_of_mem_doubleRoundGroups : ∀ g ∈ doubleRoundGroups, [g.i, g.j, g.k, g.l].Nodup := by
  decide

/-- Settles O7: the four results by reading the group back, the other words by the frame of `writeQuad`. -/
theorem quarterRoundInPlace : Obligations.QuarterRoundInPlace := by
  refine ⟨fun x g hg => ?_, nodup_of_mem_doubleRoundGroups⟩
  have h := readQuad_quarterRound x hg
  exact ⟨congrArg Quad.a h, congrArg Quad.b h, congrArg Quad.c h, congrArg Quad.d h,
    fun _ hm => getElem_writeQuad_of_notMem x _ hm⟩

/-! ## The double-round (R162) -/

/-- The argument for `quarterRound` and its inverse at once: f and f' are `qr` and `qrInv`, in either order. -/
theorem leftInverse_writeQuad {f f' : Quad → Quad} (hf : Function.LeftInverse f' f) {g : QuadIdx}
    (hg : [g.i, g.j, g.k, g.l].Nodup) :
    Function.LeftInverse (fun x => writeQuad x g (f' (readQuad x g))) fun x => writeQuad x g (f (readQuad x g)) := by
  intro x
  simp only [readQuad_writeQuad x _ hg, hf (readQuad x g), writeQuad_writeQuad, writeQuad_readQuad]

theorem quarterRound_bijective {g : QuadIdx} (hg : [g.i, g.j, g.k, g.l].Nodup) :
    Function.Bijective fun x => quarterRound x g :=
  Function.bijective_iff_has_inverse.mpr
    ⟨_, leftInverse_writeQuad qrInv_qr hg, leftInverse_writeQuad qr_qrInv hg⟩

theorem phase_bijective {gs : List QuadIdx} (hgs : ∀ g ∈ gs, [g.i, g.j, g.k, g.l].Nodup) :
    Function.Bijective (phase gs) := by
  induction gs with
  | nil => exact Function.bijective_id
  | cons g gs ih =>
    obtain ⟨hg, hgs⟩ := List.forall_mem_cons.mp hgs
    exact (ih hgs).comp (quarterRound_bijective hg)

/-- Settles O10: a double-round is the phase of its eight groups, each of four distinct indices. -/
theorem doubleRoundIsABijection : Obligations.DoubleRoundIsABijection :=
  phase_bijective nodup_of_mem_doubleRoundGroups

/-! ## QR on packets (R124) -/

/-- Settles O27: the checks in their order. -/
theorem qrPackets : Obligations.QrPackets := by
  intro s f p
  have ho : opcField (f ++ 0x04#8) = Opcode.qr.toByte := opcField_append _ _
  have hr := reserved_f0 f 0x04#8
  split_ifs with hf
  · exact endsInFault_of_reserved s ho (mt hr.mp hf)
  · have hr0 := hr.mpr (not_not.mp hf)
    split
    next a b c d => exact completes_of_complete (onPacket_of_accepted s ho hr0 rfl)
    next h4 =>
      refine endsInFault_of_malformed s ho hr0 (fun hp => ?_) nofun nofun
      obtain ⟨a, b, c, d, rfl⟩ := List.length_eq_four.mp hp
      exact h4 a b c d rfl

end Sys2Proof
end

section
/-! PROOFS of the family 42_state_builder: build_state, and BUILD, the loads and the reads of a data register on
commands and on packets (42_state_builder.md R140 to R149; with them RDOUT, LDKS, RDKS and RDSTATUS, R178, R194, R196
and R220). First the packet checks that all commands but ROTL32 and XORS make alike. -/

namespace Sys2Proof

open Machine

/-! ## The packet checks (R86) -/

/-- A packet whose OPC is a command's, ROTL32 and XORS apart: 0x81 for a reserved bit, else 0x84 for a payload of
wrong length, else what follows from performing the command. The field f is the reserved bits, and `bad` says in the
command's own words that the length is wrong. -/
theorem packet_checks {op : Opcode} {h : Word} (s : State) {p : List Word} (ho : opcField h = op.toByte)
    (hn : op ≠ .rotl32) (hx : op ≠ .xors) {n : Nat} {f : BitVec n} (hr : h &&& op.format.rsvdMask = 0 ↔ f = 0)
    {bad : Prop} [Decidable bad] (hb : bad ↔ p.length ≠ plenOf op h) {performed : Prop}
    (hp : p.length = plenOf op h → onPacket s h p = exec (readOperands op h p) s → performed) :
    if f ≠ 0 then EndsInFault (onPacket s h p) s op.toByte 0x81
    else if bad then EndsInFault (onPacket s h p) s op.toByte 0x84
    else performed := by
  split_ifs with hf hl
  · exact endsInFault_of_reserved s ho (mt hr.mp hf)
  · exact endsInFault_of_malformed s ho (hr.mpr (not_not.mp hf)) (hb.mp hl) (fun h => absurd h hn) hx
  · have hl0 := not_not.mp (mt hb.mpr hl)
    exact hp hl0 (onPacket_of_accepted s ho (hr.mpr (not_not.mp hf)) hl0)

/-! ## build_state and BUILD (R140 to R144) -/

/-- The 16 words of R140. -/
theorem buildState_ok {key nonce : List Byte} (hk : key.length = 32) (hn : nonce.length = 12) (counter : Word) :
    ∃ b : Words16, buildState key counter nonce = .ok b
      ∧ b.toList = [0x61707865, 0x3320646e, 0x79622d32, 0x6b206574]
          ++ (List.range 8).map (leWord key) ++ [counter] ++ (List.range 3).map (leWord nonce) :=
  ⟨_, (if_neg (not_not.mpr hk)).trans (if_neg (not_not.mpr hn)), Vector.toList_ofFn⟩

theorem exec_build_of_ok {key nonce : List Byte} {counter : Word} {b : Words16}
    (h : buildState key counter nonce = .ok b) (s : State) :
    exec (.build counter key nonce) s = .next (s.complete (s.engine.writeState b) .build b.toList) := by
  simp only [exec, execBuild, h]

/-- The words of a string unpacked from whole words are these words (R54). -/
theorem map_leWord_unpack {ws : List Word} {n : Nat} (h : ws.length = n) :
    (List.range n).map (leWord (unpack ws (4 * n))) = ws :=
  List.ext_getElem (by simp [h]) fun i _ hi => by
    rw [List.getElem_map, List.getElem_range, List.getElem_eq_getD 0]
    refine leWord_eq_of_byteOf fun k hk => ?_
    have hdiv : (4 * i + k) / 4 = i := by omega
    have hmod : (4 * i + k) % 4 = k := by omega
    rw [unpack_getD _ (by omega), hdiv, hmod]

/-- Settles O17: the two checks in their order, else the layout. -/
theorem buildStateLaysOut : Obligations.BuildStateLaysOut :=
  fun _ counter nonce => ⟨fun hk => buildState_of_key_length hk counter nonce,
    fun hk hn => buildState_of_nonce_length hk hn counter, fun hk hn => buildState_ok hk hn counter⟩

/-- Settles O36: the built State is written. -/
theorem buildCompletes : Obligations.BuildCompletes := by
  intro s counter key nonce hk hn
  obtain ⟨b, hb, hw⟩ := buildState_ok hk hn counter
  exact ⟨b, hw, completes_of_complete (exec_build_of_ok hb s)⟩

/-- Settles O28: a decoded key and nonce have the lengths of their fields, so their checks are those of the command;
where both pass, the words of the key and of the nonce are words of the payload. -/
theorem buildPackets : Obligations.BuildPackets := by
  intro s f nlen klen p
  have hk := klenField_append f nlen klen Opcode.build.toByte
  have hn := nlenField_append f nlen klen Opcode.build.toByte
  refine packet_checks (op := .build) s (opcField_append _ _) nofun nofun (reserved_fb f nlen klen _)
    (by simp only [plenOf, hk, hn, wordCount]) fun hl ha => ?_
  have hkey := unpack_key_length hl
  have hnonce := unpack_nonce_length hl
  simp only [plenOf, hk, hn, readOperands] at hl hkey hnonce ha
  obtain ⟨-, hkeyError, hnonceError, -⟩ := refusedOperandValues s
  split_ifs with hk32 hn12
  · exact ha ▸ hkeyError _ _ _ (hkey.trans_ne (mt (BitVec.eq_of_toNat_eq (y := 32#8)) hk32))
  · obtain rfl := not_not.mp hk32
    exact ha ▸ hnonceError _ _ _ hkey (hnonce.trans_ne (mt (BitVec.eq_of_toNat_eq (y := 12#8)) hn12))
  · obtain rfl := not_not.mp hk32
    obtain rfl := not_not.mp hn12
    have hlen : p.length = 12 := hl
    have hkeyWords := map_leWord_unpack (ws := (p.drop 1).take 8) (n := 8) (by simp [hlen])
    have hnonceWords := map_leWord_unpack (ws := p.drop 9) (n := 3) (by simp [hlen])
    have hcounter : [p.getD 0 0] = p.take 1 := by
      cases p with
      | nil => cases hlen
      | cons w ws => rfl
    obtain ⟨b, hb, hc⟩ := buildCompletes s (p.getD 0 0) _ _ hkey hnonce
    refine ⟨b, hb.trans ?_, ha ▸ hc⟩
    rw [← hcounter]
    exact congrArg₂ (fun ks ns => _ ++ ks ++ _ ++ ns) hkeyWords hnonceWords

/-! ## Loading a data register (R147, R194) -/

/-- Settles O37: each load is one write. -/
theorem loadsComplete : Obligations.LoadsComplete :=
  fun s b k => ⟨completes_complete s (s.engine.writeState b) .ldstate [],
    completes_complete s (s.engine.writeKs k) .ldks []⟩

/-- Byte 4j+m of the loaded KS is byte m of payload word j (R56, R194). -/
theorem bytes64_words16_getElem (p : List Word) {j m : Nat} (hj : j < 16) (hm : m < 4) :
    (bytes64 (words16 p))[4 * j + m] = byteOf (p.getD j 0) m := by
  have hdiv : (4 * j + m) / 4 = j := by omega
  have hmod : (4 * j + m) % 4 = m := by omega
  simp only [bytes64_getElem, words16_getElem, hdiv, hmod]

/-- Settles O29: the packet checks, else the load of the payload's words. -/
theorem loadPackets : Obligations.LoadPackets := by
  intro s f p
  obtain ⟨hstate, hks⟩ := loadsComplete s (words16 p) (bytes64 (words16 p))
  exact ⟨packet_checks (op := .ldstate) s (opcField_append f _) nofun nofun (reserved_f0 f _) Iff.rfl
      fun hl ha => ⟨_, toList_words16 hl, ha ▸ hstate⟩,
    packet_checks (op := .ldks) s (opcField_append f _) nofun nofun (reserved_f0 f _) Iff.rfl
      fun _ ha => ⟨_, fun _ _ hj hm => bytes64_words16_getElem p hj hm, ha ▸ hks⟩⟩

/-! ## Reading a data register (R149, R178, R196, R240) -/

theorem pack_eq_map_leWord (b : List Byte) : pack b = (List.range (wordCount b.length)).map (leWord b) :=
  List.ext_getElem (by simp [pack_length]) fun j _ _ => by
    rw [List.getElem_eq_getD 0, pack_getD, List.getElem_map, List.getElem_range]

/-- The words that RDKS answers (R196). -/
theorem pack_keyBytes (k : KeyBytes) : pack k.toList = (List.range 16).map (leWord k.toList) := by
  rw [pack_eq_map_leWord, Vector.length_toList]
  rfl

section
variable {α : Type} {reg : Option α} {op : Opcode} {s : State} {words : α → List Word}

theorem endsInFault_register_read (h : reg = none) :
    EndsInFault (withOperand reg op s fun v => .next (s.complete s.engine op (words v))) s op.toByte 0x83 :=
  endsInFault_of_raise (c := .operandNotWritten) (h ▸ rfl) rfl

theorem completes_register_read {v : α} (h : reg = some v) :
    Completes (withOperand reg op s fun v => .next (s.complete s.engine op (words v))) s s.engine op.toByte
      (words v) :=
  completes_of_complete (h ▸ rfl)

/-- A command with neither header field nor payload that answers the words of a register: on a packet with its OPC,
0x81 for a reserved bit, else 0x84 for a payload, else what follows from 0x83 where the register has no value, and
from the answer where it has one. -/
theorem register_read_packet (hf : op.format = .f0) (hl : ∀ h, plenOf op h = 0)
    (he : ∀ h p, exec (readOperands op h p) s
      = withOperand reg op s fun v => .next (s.complete s.engine op (words v)))
    (f : BitVec 24) (p : List Word) {performed : Prop}
    (hnone : reg = none → EndsInFault (onPacket s (f ++ op.toByte) p) s op.toByte 0x83 → performed)
    (hsome : ∀ v, reg = some v →
      Completes (onPacket s (f ++ op.toByte) p) s s.engine op.toByte (words v) → performed) :
    if f ≠ 0 then EndsInFault (onPacket s (f ++ op.toByte) p) s op.toByte 0x81
    else if p ≠ [] then EndsInFault (onPacket s (f ++ op.toByte) p) s op.toByte 0x84
    else performed := by
  have hb : p ≠ [] ↔ p.length ≠ plenOf op (f ++ op.toByte) := by rw [hl]; exact List.length_eq_zero_iff.not.symm
  refine packet_checks s (opcField_append f _) (by rintro rfl; cases hf) (by rintro rfl; cases hf)
    (hf ▸ reserved_f0 f _) hb fun _ ha => ?_
  rw [he] at ha
  cases hv : reg with
  | none => exact hnone hv (ha ▸ endsInFault_register_read hv)
  | some v => exact hsome v hv (ha ▸ completes_register_read hv)

end

/-- Settles O38: each read answers the words of its register. -/
theorem readsComplete : Obligations.ReadsComplete :=
  fun s => ⟨fun _ => completes_register_read (op := .rdstate), fun _ => completes_register_read (op := .rdout),
    fun k hk => pack_keyBytes k ▸ completes_register_read (op := .rdks) hk, completes_of_complete (exec_rdstatus s)⟩

/-- Settles O30: the packet checks, else the read of the register. -/
theorem readPackets : Obligations.ReadPackets := by
  intro s f p
  simp only [← pack_keyBytes]
  exact ⟨register_read_packet (op := .rdstate) rfl (fun _ => rfl) (fun _ _ => rfl) f p
      (fun hv h => hv ▸ h) fun _ hv h => hv ▸ h,
    register_read_packet (op := .rdout) rfl (fun _ => rfl) (fun _ _ => rfl) f p
      (fun hv h => hv ▸ h) fun _ hv h => hv ▸ h,
    register_read_packet (op := .rdks) rfl (fun _ => rfl) (fun _ _ => rfl) f p
      (fun hv h => hv ▸ h) fun _ hv h => hv ▸ h⟩

end Sys2Proof
end

section
/-! PROOFS of the family 43_block_transform: the index groups, the block function, its trace record by record and word
by word, and BLOCK on commands and on packets (43_block_transform.md R160 to R176). A trace is read by the position of
its records: two records for each group of a phase, seventeen for each double-round. -/

namespace Sys2Proof

open Machine

/-! ## The groups of a phase (R161, R162) -/

/-- Settles O8, on the two tables themselves. -/
theorem indexGroupsAreTheTable : Obligations.IndexGroupsAreTheTable :=
  ⟨rfl, rfl, by decide⟩

/-- No index belongs to both groups. -/
def Machine.QuadIdx.Disjoint (g h : QuadIdx) : Prop := ∀ m ∈ [g.i, g.j, g.k, g.l], m ∉ [h.i, h.j, h.k, h.l]

theorem Machine.QuadIdx.Disjoint.symm {g h : QuadIdx} (hd : g.Disjoint h) : h.Disjoint g :=
  fun m hm hg => hd m hg hm

/-- A word outside the group written first is as if that write had not been made. -/
theorem getElem_writeQuad_writeQuad_of_notMem (x : Words16) {g : QuadIdx} (h : QuadIdx) (q r : Quad) {m : Fin 16}
    (hm : m ∉ [g.i, g.j, g.k, g.l]) : (writeQuad (writeQuad x g q) h r)[m] = (writeQuad x h r)[m] := by
  simp only [getElem_writeQuad _ h, getElem_writeQuad_of_notMem x q hm]

section
variable (x : Words16) {g h : QuadIdx} (hd : g.Disjoint h) (q r : Quad)
include hd

/-- The words of a group are read past a write to a disjoint group. -/
theorem readQuad_writeQuad_of_disjoint : readQuad (writeQuad x g q) h = readQuad x h := by
  have hx : ∀ m ∈ [h.i, h.j, h.k, h.l], (writeQuad x g q)[m] = x[m] := fun m hm =>
    getElem_writeQuad_of_notMem x q (hd.symm m hm)
  simp only [List.forall_mem_cons] at hx
  obtain ⟨hi, hj, hk, hl, -⟩ := hx
  simp only [readQuad, hi, hj, hk, hl]

theorem writeQuad_comm_of_disjoint :
    writeQuad (writeQuad x g q) h r = writeQuad (writeQuad x h r) g q := by
  refine words16_ext fun m => ?_
  by_cases hm : m ∈ [g.i, g.j, g.k, g.l]
  · rw [getElem_writeQuad_of_notMem _ r (hd m hm), getElem_writeQuad_writeQuad_of_notMem x g r q (hd m hm)]
  · rw [getElem_writeQuad_writeQuad_of_notMem x h q r hm, getElem_writeQuad_of_notMem _ q hm]

theorem quarterRound_comm_of_disjoint :
    quarterRound (quarterRound x g) h = quarterRound (quarterRound x h) g := by
  simp only [quarterRound, readQuad_writeQuad_of_disjoint x hd, readQuad_writeQuad_of_disjoint x hd.symm,
    writeQuad_comm_of_disjoint x hd]

end

theorem phase_eq_of_perm {gs gs' : List QuadIdx} (hd : ∀ g ∈ gs, ∀ h ∈ gs, g ≠ h → g.Disjoint h)
    (hp : gs'.Perm gs) (w : Words16) : phase gs' w = phase gs w := by
  refine (hp.symm.foldl_eq' (fun g hg h hh x => ?_) w).symm
  by_cases hgh : g = h
  · rw [hgh]
  · exact quarterRound_comm_of_disjoint x (hd g hg h hh hgh)

theorem columnGroups_disjoint : ∀ g ∈ columnGroups, ∀ h ∈ columnGroups, g ≠ h → g.Disjoint h := by
  unfold QuadIdx.Disjoint
  decide

theorem diagonalGroups_disjoint : ∀ g ∈ diagonalGroups, ∀ h ∈ diagonalGroups, g ≠ h → g.Disjoint h := by
  unfold QuadIdx.Disjoint
  decide

/-- Settles O9: two groups of one phase are disjoint, so their quarter-rounds commute. -/
theorem phaseOrderDoesNotMatter : Obligations.PhaseOrderDoesNotMatter :=
  fun _ w => ⟨fun hp => phase_eq_of_perm columnGroups_disjoint hp w,
    fun hp => phase_eq_of_perm diagonalGroups_disjoint hp w⟩

/-- One more group of a phase is one more quarter-round. -/
theorem phase_take_succ {gs : List QuadIdx} {m : Nat} {q : QuadIdx} (hq : gs[m]? = some q) (w : Words16) :
    phase (gs.take (m + 1)) w = quarterRound (phase (gs.take m) w) q := by
  rw [List.take_add_one, hq, phase, List.foldl_append]
  rfl

/-! ## The block function (R163, R165, R166) -/

theorem doubleRounds_eq_iterate (n : Nat) (w : Words16) : doubleRounds n w = doubleRound^[n] w := by
  induction n generalizing w with
  | zero => rfl
  | succ n ih => exact ih (doubleRound w)

theorem block_eq_finalize (s : Words16) : block s = finalize (doubleRound^[10] s) s := by
  rw [block, roundCount, doubleRounds_eq_iterate]

@[simp] theorem getElem_finalize (w s : Words16) {i : Nat} (hi : i < 16) : (finalize w s)[i] = add32 w[i] s[i] :=
  Vector.getElem_zipWith hi

theorem getElem_block (s : Words16) {i : Nat} (hi : i < 16) : (block s)[i] = add32 (doubleRound^[10] s)[i] s[i] := by
  simp only [block_eq_finalize, getElem_finalize]

/-- Settles O11: a phase folds over its groups from the first on, which is a fold from the right over the reversed
list. -/
theorem blockIsTenDoubleRoundsPlusInput : Obligations.BlockIsTenDoubleRoundsPlusInput :=
  ⟨fun _ => List.foldl_eq_foldr_reverse, fun s _ hi => getElem_block s hi⟩

/-! ## The records of a trace by their numbers (R171, R172) -/

/-- The 17 records of one double-round on W. -/
def traceRound (w : Words16) : List TraceRecord :=
  tracePhase doubleRoundGroups w ++ [{ kind := .round, indices := none, before := none, after := some (doubleRound w) }]

theorem traceRounds_succ (n : Nat) (w : Words16) :
    traceRounds (n + 1) w = traceRound w ++ traceRounds n (doubleRound w) :=
  List.append_cons _ _ _

theorem tracePhase_length (gs : List QuadIdx) (w : Words16) : (tracePhase gs w).length = 2 * gs.length := by
  induction gs generalizing w with
  | nil => rfl
  | cons g gs ih => simp only [tracePhase, List.length_cons, ih]; omega

theorem traceRound_length (w : Words16) : (traceRound w).length = 17 := by
  rw [traceRound, List.length_append, tracePhase_length]
  rfl

theorem traceRounds_length (n : Nat) (w : Words16) : (traceRounds n w).length = 17 * n := by
  induction n generalizing w with
  | zero => rfl
  | succ n ih => rw [traceRounds_succ, List.length_append, traceRound_length, ih]; omega

/-- The two records of group m are those of its quarter-round on the W that the groups before it made. -/
theorem getElem?_tracePhase {gs : List QuadIdx} {m j : Nat} {q : QuadIdx} (hq : gs[m]? = some q) (hj : j < 2)
    (w : Words16) : (tracePhase gs w)[2 * m + j]? = (tracePhase [q] (phase (gs.take m) w))[j]? := by
  induction gs generalizing m w with
  | nil => cases hq
  | cons g gs ih =>
    cases m with
    | zero =>
      cases hq
      rw [Nat.mul_zero, Nat.zero_add]
      exact List.getElem?_append_left (l₁ := tracePhase [q] w) hj
    | succ m =>
      have hn : 2 * (m + 1) + j = 2 * m + j + 2 := by omega
      rw [hn]
      exact ih hq (quarterRound w g)

/-- The 17 records of double-round r are those of the W that r double-rounds made. -/
theorem getElem?_traceRounds {n r j : Nat} (hr : r < n) (hj : j < 17) (w : Words16) :
    (traceRounds n w)[17 * r + j]? = (traceRound (doubleRound^[r] w))[j]? := by
  induction n generalizing r w with
  | zero => cases hr
  | succ n ih =>
    rw [traceRounds_succ]
    cases r with
    | zero => rw [List.getElem?_append_left (by rw [traceRound_length]; omega), Nat.mul_zero, Nat.zero_add]; rfl
    | succ r =>
      have hsub : 17 * (r + 1) + j - 17 = 17 * r + j := by omega
      rw [List.getElem?_append_right (by rw [traceRound_length]; omega), traceRound_length, hsub]
      exact ih (by omega) _

section
variable (s : Words16) {r m j : Nat} {q : QuadIdx}

theorem blockTraced_fst : (blockTraced s).1 = block s := rfl

theorem blockTraced_length : (blockTraced s).2.length = 172 := by
  simp only [blockTraced, List.length_cons, List.length_append, traceRounds_length, roundCount, List.length_nil]

theorem blockTraced_initial :
    (blockTraced s).2[0]? = some { kind := .state, indices := none, before := some s, after := none } := rfl

theorem blockTraced_final : (blockTraced s).2[171]?
    = some { kind := .final, indices := none, before := some s, after := some (block s) } := by
  refine Eq.trans ?_ (List.getElem?_concat_length (l := traceRounds roundCount s))
  rw [traceRounds_length]
  rfl

/-- The records between the first and the last are those of the 10 double-rounds. -/
theorem blockTraced_traceRound (hr : r < 10) (hj : j < 17) :
    (blockTraced s).2[1 + 17 * r + j]? = (traceRound (doubleRound^[r] s))[j]? := by
  have hn : 1 + 17 * r + j = 17 * r + j + 1 := by omega
  rw [← getElem?_traceRounds hr hj s, hn]
  exact List.getElem?_append_left (by rw [traceRounds_length, roundCount]; omega)

theorem blockTraced_round (hr : r < 10) : (blockTraced s).2[17 + 17 * r]?
    = some { kind := .round, indices := none, before := none, after := some (doubleRound^[r + 1] s) } := by
  have hn : 17 + 17 * r = 1 + 17 * r + 16 := by omega
  rw [hn, blockTraced_traceRound s hr (by decide), Function.iterate_succ_apply']
  exact List.getElem?_concat_length

theorem blockTraced_tracePhase (hr : r < 10) (hq : doubleRoundGroups[m]? = some q) (hj : j < 2) :
    (blockTraced s).2[1 + 17 * r + (2 * m + j)]?
      = (tracePhase [q] (phase (doubleRoundGroups.take m) (doubleRound^[r] s)))[j]? := by
  have hm : m < 8 := (List.getElem?_eq_some_iff.mp hq).1
  have hl : (tracePhase doubleRoundGroups (doubleRound^[r] s)).length = 16 := tracePhase_length _ _
  rw [blockTraced_traceRound s hr (by omega), traceRound, List.getElem?_append_left (by omega),
    getElem?_tracePhase hq hj]

theorem blockTraced_quarter (hr : r < 10) (hq : doubleRoundGroups[m]? = some q) :
    (blockTraced s).2[1 + 17 * r + 2 * m]?
      = some { kind := .quarter, indices := some q,
               before := some (phase (doubleRoundGroups.take m) (doubleRound^[r] s)), after := none } :=
  blockTraced_tracePhase s hr hq (j := 0) (by decide)

theorem blockTraced_state (hr : r < 10) (hq : doubleRoundGroups[m]? = some q) :
    (blockTraced s).2[2 + 17 * r + 2 * m]?
      = some { kind := .state, indices := some q, before := none,
               after := some (quarterRound (phase (doubleRoundGroups.take m) (doubleRound^[r] s)) q) } := by
  have hn : 2 + 17 * r + 2 * m = 1 + 17 * r + (2 * m + 1) := by omega
  rw [hn, blockTraced_tracePhase s hr hq (by decide)]
  rfl

end

/-- Group g of phase p among the eight groups of a double-round. -/
theorem getElem?_doubleRoundGroups {p g : Nat} (hp : p < 2) (hg : g < 4) :
    doubleRoundGroups[4 * p + g]? = (if p = 0 then columnGroups else diagonalGroups)[g]? := by
  have h : ∀ p, p < 2 → ∀ g, g < 4 →
      doubleRoundGroups[4 * p + g]? = (if p = 0 then columnGroups else diagonalGroups)[g]? := by decide
  exact h p hp g hg

theorem exists_doubleRoundGroup {m : Nat} (hm : m < 8) : ∃ q, doubleRoundGroups[m]? = some q :=
  ⟨_, List.getElem?_eq_getElem (l := doubleRoundGroups) hm⟩

/-- Settles O12: group g of phase p is group 4p+g of the double-round. -/
theorem traceRecordsInOrder : Obligations.TraceRecordsInOrder := by
  intro s
  refine ⟨blockTraced_length s, blockTraced_fst s, blockTraced_initial s, blockTraced_final s,
    fun r hr => blockTraced_round s hr, fun r p g hr hp hg => ?_⟩
  obtain ⟨q, hq⟩ := exists_doubleRoundGroup (m := 4 * p + g) (by omega)
  have hquarter : 1 + 17 * r + 8 * p + 2 * g = 1 + 17 * r + 2 * (4 * p + g) := by omega
  have hstate : 2 + 17 * r + 8 * p + 2 * g = 2 + 17 * r + 2 * (4 * p + g) := by omega
  refine ⟨q, getElem?_doubleRoundGroups hp hg ▸ hq, ?_, ?_⟩
  · rw [hquarter]
    exact blockTraced_quarter s hr hq
  · rw [hstate]
    exact blockTraced_state s hr hq

/-! ## The snapshots agree (R173) -/

/-- Settles O13: the W after group m is the W before group m+1, and after the last group it is the W of the round
record and of the next double-round. -/
theorem traceSnapshotsAgree : Obligations.TraceSnapshotsAgree := by
  intro s
  refine ⟨congrArg (·.bind (·.after)) (blockTraced_final s), congrArg (·.bind (·.before)) (blockTraced_final s), rfl,
    ⟨_, congrArg (·.bind (·.after)) (blockTraced_round s (r := 9) (by decide)), fun _ hi => getElem_block s hi⟩,
    fun r m hr hm => ?_⟩
  obtain ⟨q, hq⟩ := exists_doubleRoundGroup hm
  have hnext := phase_take_succ hq (doubleRound^[r] s)
  have hlast (h7 : m = 7) :
      quarterRound (phase (doubleRoundGroups.take m) (doubleRound^[r] s)) q = doubleRound^[r + 1] s := by
    rw [← hnext, h7, Function.iterate_succ_apply']
    rfl
  refine ⟨q, _, _, blockTraced_quarter s hr hq, blockTraced_state s hr hq,
    fun i hi => (getElem_writeQuad_of_notMem _ _ hi).symm, fun hm7 => ?nextQuarter, fun h7 => ?round,
    fun h7 hr9 => ?nextRound⟩
  case nextQuarter =>
    obtain ⟨q', hq'⟩ := exists_doubleRoundGroup (m := m + 1) (by omega)
    have hn : 3 + 17 * r + 2 * m = 1 + 17 * r + 2 * (m + 1) := by omega
    rw [hn, blockTraced_quarter s hr hq', ← hnext]
    rfl
  case round =>
    rw [blockTraced_round s hr, hlast h7]
    rfl
  case nextRound =>
    obtain ⟨q', hq'⟩ := exists_doubleRoundGroup (m := 0) (by decide)
    have hn : 18 + 17 * r = 1 + 17 * (r + 1) + 2 * 0 := by omega
    rw [hn, blockTraced_quarter s (r := r + 1) (by omega) hq', hlast h7]
    rfl

/-! ## The words of a trace (R174) -/

theorem toNat_indexBits (q : QuadIdx) :
    (indexBits (some q)).toNat = q.l.val * 2 ^ 12 + q.k.val * 2 ^ 8 + q.j.val * 2 ^ 4 + q.i.val := by
  have hidx (i : Fin 16) : (idxBits i).toNat = i.val := Nat.mod_eq_of_lt i.isLt
  have h : (indexBits (some q)).toNat = 2 ^ 4 * (2 ^ 4 * (2 ^ 4 * q.l.val + q.k.val) + q.j.val) + q.i.val :=
    (toNat_append_eq_add (idxBits q.l ++ idxBits q.k ++ idxBits q.j) (idxBits q.i)).trans
      (by simp only [toNat_append_eq_add, hidx])
  omega

/-- The record-header word as a number: the indices from bit 8, the three flags from bit 5 down, and KIND. -/
theorem headerWord_eq_ofNat (r : TraceRecord) :
    r.headerWord = BitVec.ofNat 32 (2 ^ 8 * (indexBits r.indices).toNat + (2 ^ 5 * r.after.isSome.toNat
      + 2 ^ 4 * r.before.isSome.toNat + 2 ^ 3 * r.indices.isSome.toNat + r.kind.toBits.toNat)) := by
  have h : r.headerWord.toNat = 2 ^ 3 * (2 ^ 1 * (2 ^ 1 * (2 ^ 1 * (2 ^ 2 * (2 ^ 16 * 0
      + (indexBits r.indices).toNat) + 0) + r.after.isSome.toNat) + r.before.isSome.toNat)
      + r.indices.isSome.toNat) + r.kind.toBits.toNat :=
    (toNat_append_eq_add (0#8 ++ indexBits r.indices ++ 0#2 ++ BitVec.ofBool r.after.isSome
      ++ BitVec.ofBool r.before.isSome ++ BitVec.ofBool r.indices.isSome) r.kind.toBits).trans
      (by simp only [toNat_append_eq_add, BitVec.toNat_ofBool, BitVec.toNat_ofNat])
  rw [← BitVec.setWidth_eq r.headerWord, ← BitVec.ofNat_toNat, h]
  congr 1
  omega

/-- The header word of a record with indices, with their fields at the places of R174. -/
theorem headerWord_of_indices {r : TraceRecord} {q : QuadIdx} (hq : r.indices = some q) :
    r.headerWord = BitVec.ofNat 32 (q.l.val * 2 ^ 20 + q.k.val * 2 ^ 16 + q.j.val * 2 ^ 12 + q.i.val * 2 ^ 8
      + (2 ^ 5 * r.after.isSome.toNat + 2 ^ 4 * r.before.isSome.toNat + 2 ^ 3 + r.kind.toBits.toNat)) := by
  rw [headerWord_eq_ofNat, hq, toNat_indexBits]
  congr 1
  simp only [Option.isSome_some, Bool.toNat_true]
  omega

/-- A phase's records carry one snapshot each, so they are 17 words long. -/
theorem encode_length_of_mem_tracePhase {gs : List QuadIdx} {w : Words16} {x : TraceRecord}
    (hx : x ∈ tracePhase gs w) : x.encode.length = 17 := by
  induction gs generalizing w with
  | nil => cases hx
  | cons g gs ih =>
    simp only [tracePhase, List.mem_cons] at hx
    obtain rfl | rfl | hx := hx
    · simp
    · simp
    · exact ih hx

theorem encode_length_of_mem_traceRounds {n : Nat} {w : Words16} {x : TraceRecord}
    (hx : x ∈ traceRounds n w) : x.encode.length = 17 := by
  induction n generalizing w with
  | zero => cases hx
  | succ n ih =>
    simp only [traceRounds, List.mem_append, List.mem_cons] at hx
    obtain hx | rfl | hx := hx
    · exact encode_length_of_mem_tracePhase hx
    · simp
    · exact ih hx

/-- Every record before the last carries one snapshot, and the last carries two. -/
theorem encode_length_of_getElem?_blockTraced {s : Words16} {r : Nat} {x : TraceRecord}
    (hx : (blockTraced s).2[r]? = some x) : x.encode.length = if r = 171 then 33 else 17 := by
  split_ifs with hr
  · cases (hr ▸ hx).symm.trans (blockTraced_final s)
    simp
  · have hl := (List.getElem?_eq_some_iff.mp hx).1
    rw [blockTraced_length] at hl
    cases r with
    | zero => cases hx; simp
    | succ r =>
      have hx' : (traceRounds roundCount s)[r]? = some x :=
        (List.getElem?_append_left (by rw [traceRounds_length, roundCount]; omega)).symm.trans hx
      exact encode_length_of_mem_traceRounds (List.mem_of_getElem? hx')

/-- The words of record r stand after those of the r records before it. -/
theorem encodeTrace_drop_take {tr : List TraceRecord} {r : Nat} {x : TraceRecord} (hx : tr[r]? = some x)
    (h17 : ∀ y ∈ tr.take r, y.encode.length = 17) :
    ((encodeTrace tr).drop (17 * r)).take x.encode.length = x.encode := by
  induction tr generalizing r with
  | nil => cases hx
  | cons y tr ih =>
    cases r with
    | zero => cases hx; exact List.take_left
    | succ r =>
      obtain ⟨hy, htr⟩ := List.forall_mem_cons.mp h17
      have hskip : (y.encode ++ encodeTrace tr).drop (17 * (r + 1)) = (encodeTrace tr).drop (17 * r) := by
        rw [Nat.mul_succ, Nat.add_comm, ← hy, List.drop_length_add_append]
      rw [encodeTrace_cons, hskip]
      exact ih hx htr

/-- Settles O14: a header word is the number of its fields, and a record's place follows from the sizes of the records
before it. -/
theorem traceEncodingIsTheTable : Obligations.TraceEncodingIsTheTable := by
  refine ⟨fun q w w' => ⟨?initial, ?quarter, ?stateAfter, ?round, ?final⟩, fun s => ⟨encodeTrace_blockTraced_length s,
    fun r x hx => ⟨encode_length_of_getElem?_blockTraced hx, encodeTrace_drop_take hx fun y hy => ?earlier⟩⟩⟩
  case initial => exact congrArg₂ _ (headerWord_eq_ofNat _) (List.append_nil _)
  case quarter => exact congrArg₂ _ (headerWord_of_indices rfl) (List.append_nil _)
  case stateAfter => exact congrArg (· :: w.toList) (headerWord_of_indices rfl)
  case round => exact congrArg (· :: w.toList) (headerWord_eq_ofNat _)
  case final => exact congrArg (· :: (w.toList ++ w'.toList)) (headerWord_eq_ofNat _)
  case earlier =>
    obtain ⟨j, hj, rfl⟩ := List.mem_take_iff_getElem.mp hy
    have hl := (List.getElem?_eq_some_iff.mp hx).1
    rw [blockTraced_length] at hl
    have hne : j ≠ 171 := by omega
    exact (encode_length_of_getElem?_blockTraced (List.getElem?_eq_getElem _)).trans (if_neg hne)

/-! ## BLOCK (R176) -/

theorem exec_block_of_none {s : State} (hs : s.engine.state = none) (t : Bool) :
    exec (.block t) s = .next (s.raise Opcode.block.toByte .operandNotWritten) := by
  rw [exec, execBlock, hs, withOperand_none]

theorem exec_block_untraced {s : State} {b : Words16} (hb : s.engine.state = some b) :
    exec (.block false) s = .next (s.complete (s.engine.writeOut (block b)) .block (block b).toList) := by
  rw [exec, execBlock, hb, withOperand_some, if_neg Bool.false_ne_true]

/-- The result words of BLOCK on the State b. -/
def blockWords (t : Bool) (b : Words16) : List Word :=
  (block b).toList ++ if t then encodeTrace (blockTraced b).2 else []

/-- What BLOCK writes does not depend on T, and what it answers depends on STATE alone. -/
theorem exec_block_of_some {s : State} {b : Words16} (hb : s.engine.state = some b) (t : Bool) :
    exec (.block t) s = .next (s.complete (s.engine.writeOut (block b)) .block (blockWords t b)) := by
  cases t with
  | false => exact (exec_block_untraced hb).trans (by rw [blockWords, if_neg Bool.false_ne_true, List.append_nil])
  | true => exact exec_block_traced hb

/-- Settles O39: with T or without, the one write of OUT. -/
theorem blockCompletes : Obligations.BlockCompletes :=
  fun _ _ hb => ⟨completes_of_complete (exec_block_untraced hb), completes_of_complete (exec_block_of_some hb true)⟩

/-- Settles O31: the packet checks, else the command on STATE. -/
theorem blockPackets : Obligations.BlockPackets := by
  intro s f t p
  refine packet_checks (op := .block) s (opcField_append _ _) nofun nofun (reserved_ft f _ _)
    List.length_eq_zero_iff.not.symm fun _ ha => ?_
  rw [readOperands, tField_append] at ha
  cases hs : s.engine.state with
  | none => exact endsInFault_of_raise (ha.trans (exec_block_of_none hs t)) rfl
  | some b => exact completes_of_complete (ha.trans (exec_block_of_some hs t))

/-- Settles O57: BLOCK keeps STATE, on which alone its outcome depends. -/
theorem blockRepeats : Obligations.BlockRepeats := by
  intro t s u v hu hv
  cases hs : s.engine.state with
  | none =>
    cases (exec_block_of_none hs t).symm.trans hu
    cases (exec_block_of_none (s := s.raise _ _) hs t).symm.trans hv
    refine ⟨rfl, ⟨_, rfl, rfl⟩, fun t' u' hu' => ?_⟩
    cases (exec_block_of_none hs t').symm.trans hu'
    rfl
  | some b =>
    cases (exec_block_of_some hs t).symm.trans hu
    cases (exec_block_of_some (s := s.complete (s.engine.writeOut _) _ _) hs t).symm.trans hv
    refine ⟨rfl, ⟨_, rfl, rfl⟩, fun t' u' hu' => ?_⟩
    cases (exec_block_of_some hs t').symm.trans hu'
    rfl

end Sys2Proof
end

section
/-! PROOFS of the family 44_keystream_codec: xor_stream and the serialized block, and SERIAL and XORS on commands and
on packets (44_keystream_codec.md R190 to R200). -/

namespace Sys2Proof

open Machine

/-! ## xor_stream (R198, R199) -/

section
variable {data ks : List Byte}

theorem xorStream_of_nonempty (hk : 0 < ks.length) : xorStream data ks = .ok (xorBytes data ks) :=
  if_neg hk.ne'

theorem xorBytes_length (data ks : List Byte) : (xorBytes data ks).length = data.length :=
  List.length_mapIdx

theorem getElem?_xorBytes {i : Nat} (hi : i < data.length) :
    (xorBytes data ks)[i]? = some (data[i] ^^^ ks.getD (i % ks.length) 0) := by
  rw [xorBytes, List.getElem?_mapIdx, List.getElem?_eq_getElem hi, Option.map_some]

/-- Every byte meets the same keystream byte both times, which cancels. -/
theorem xorBytes_xorBytes (data ks : List Byte) : xorBytes (xorBytes data ks) ks = data :=
  List.ext_getElem (by rw [xorBytes_length, xorBytes_length]) fun i _ _ => by
    simp only [xorBytes, List.getElem_mapIdx, BitVec.xor_assoc, BitVec.xor_self, BitVec.xor_zero]

end

/-- Settles O19: the empty keystream is refused; a non-empty one is read at i mod its length. -/
theorem xorStreamIsAnInvolution : Obligations.XorStreamIsAnInvolution := by
  refine ⟨fun _ => rfl, fun data ks hk => ⟨xorBytes data ks, xorStream_of_nonempty hk, xorBytes_length data ks,
    fun i hi => ?_, ?_⟩⟩
  · rw [getElem?_xorBytes hi, ← List.getElem_eq_getD]
  · rw [xorStream_of_nonempty hk, xorBytes_xorBytes]

/-! ## The serialized block, and SERIAL (R190 to R192) -/

/-- Byte 4i+k of the serialized block (R190). -/
theorem getElem_serializeLe (b : Words16) {i k : Nat} (hi : i < 16) (hk : k < 4) :
    (serializeLe b)[4 * i + k] = byteOf b[i] k := by
  have hdiv : (4 * i + k) / 4 = i := by omega
  have hmod : (4 * i + k) % 4 = k := by omega
  simp only [serializeLe, bytes64_getElem, hdiv, hmod]

/-- Packing the serialized block gives the block back (R191). -/
theorem pack_serializeLe (b : Words16) : pack (serializeLe b).toList = b.toList := pack_bytes64 b

/-- Unpacking the block again leaves no byte out, since its 16 words hold 64 bytes. -/
theorem toList_serializeLe (b : Words16) : (serializeLe b).toList = b.toList.flatMap leBytes := by
  have h := unpack_pack (serializeLe b).toList
  rw [pack_serializeLe, unpack, List.take_of_length_le
    (by rw [flatMap_leBytes_length, Vector.length_toList, Vector.length_toList])] at h
  exact h.symm

theorem exec_serial_of_none {s : State} (ho : s.engine.out = none) :
    exec .serial s = .next (s.raise Opcode.serial.toByte .operandNotWritten) := by
  rw [exec, execSerial, ho, withOperand_none]

/-- SERIAL answers OUT itself (R192). -/
theorem exec_serial_of_some {s : State} {b : Words16} (ho : s.engine.out = some b) :
    exec .serial s = .next (s.complete (s.engine.writeKs (serializeLe b)) .serial b.toList) := by
  simp only [exec, execSerial, ho, withOperand_some, pack_serializeLe]

theorem exec_rdks_of_some {s : State} {k : KeyBytes} (hk : s.engine.ks = some k) :
    exec .rdks s = .next (s.complete s.engine .rdks (pack k.toList)) := by
  rw [exec, execRdks, hk, withOperand_some]

/-- The response of a completed command that answers 16 words (R85). -/
theorem respond_words16 (op : Opcode) (b : Words16) :
    respond op.toByte .ok b.toList = { status := 0x0010#16 ++ op.toByte ++ 0x00#8, result := b.toList } := by
  rw [respond_ok, Vector.length_toList]
  rfl

/-- Settles O18: KS holds the serialized block after SERIAL, so RDKS packs it again. -/
theorem serializeThenPack : Obligations.SerializeThenPack := by
  refine ⟨fun b => ⟨fun _ _ hi hk => getElem_serializeLe b hi hk, toList_serializeLe b, pack_serializeLe b⟩,
    fun s b ho => ⟨_, _, exec_serial_of_some ho, exec_rdks_of_some rfl, ?_, ?_⟩⟩
  · rw [State.complete_responses, respond_words16]
    rfl
  · rw [State.complete_responses, pack_serializeLe, respond_words16]
    rfl

/-- Settles O40: the one write of KS. -/
theorem serialCompletes : Obligations.SerialCompletes :=
  fun _ b ho => ⟨serializeLe b, toList_serializeLe b, completes_of_complete (exec_serial_of_some ho)⟩

/-- Settles O32: the packet checks, else the command on OUT. -/
theorem serialPackets : Obligations.SerialPackets := by
  intro s f p
  refine packet_checks (op := .serial) s (opcField_append f _) nofun nofun (reserved_f0 f _)
    List.length_eq_zero_iff.not.symm fun _ ha => ?_
  cases ho : s.engine.out with
  | none => exact endsInFault_of_raise (ha.trans (exec_serial_of_none ho)) rfl
  | some b => exact ⟨serializeLe b, fun _ _ hj hm => getElem_serializeLe b hj hm,
      completes_of_complete (ha.trans (exec_serial_of_some ho))⟩

/-! ## XORS (R200) -/

theorem one_le_toNat_iff {n : Nat} {x : BitVec n} : 1 ≤ x.toNat ↔ x ≠ 0 :=
  Nat.one_le_iff_ne_zero.trans (BitVec.toNat_inj (y := 0)).not

/-- The first KSLEN bytes of KS: the keystream that XORS reads. -/
def keystream (k : KeyBytes) (kslen : BitVec 7) : List Byte := k.toList.take kslen.toNat

section
variable {k : KeyBytes} {kslen : BitVec 7} {w : Bool} {data : List Byte} {s : State}
  (h1 : 1 ≤ kslen.toNat) (h64 : kslen.toNat ≤ 64)
include h64

theorem keystream_length : (keystream k kslen).length = kslen.toNat := by
  rw [keystream, List.length_take, Vector.length_toList, Nat.min_eq_left h64]

include h1

theorem getElem?_xorBytes_keystream {i : Nat} (hi : i < data.length) :
    (xorBytes data (keystream k kslen))[i]? = some (data.getD i 0 ^^^ k.toList.getD (i % kslen.toNat) 0) := by
  have hks : (keystream k kslen).getD (i % kslen.toNat) 0 = k.toList.getD (i % kslen.toNat) 0 := by
    rw [keystream, List.getD_eq_getElem?_getD, List.getElem?_take_of_lt (Nat.mod_lt _ h1),
      ← List.getD_eq_getElem?_getD]
  rw [getElem?_xorBytes hi, keystream_length h64, hks, List.getElem_eq_getD 0]

theorem exec_xors_of_none (hk : s.engine.ks = none) :
    exec (.xors kslen w data) s = .next (s.raise Opcode.xors.toByte .operandNotWritten) := by
  rw [exec, execXors, if_neg h64.not_gt, if_neg (one_le_toNat_iff.mp h1), hk, withOperand_none]

theorem exec_xors_of_some (hk : s.engine.ks = some k) (hw : w = true ∨ data.length ≤ kslen.toNat) :
    exec (.xors kslen w data) s
      = .next (s.complete s.engine .xors (pack (xorBytes data (keystream k kslen)))) := by
  have hd : ¬(w = false ∧ kslen.toNat < data.length) :=
    not_and_or.mpr (hw.imp ne_false_of_eq_true not_lt.mpr)
  have hx : xorStream data (k.toList.take kslen.toNat) = .ok (xorBytes data (keystream k kslen)) :=
    xorStream_of_nonempty (by rw [← keystream, keystream_length h64]; exact h1)
  rw [exec, execXors, if_neg h64.not_gt, if_neg (one_le_toNat_iff.mp h1), hk, withOperand_some, if_neg hd, hx]

end

/-- XORS with code 0x00 has passed all four of its checks. -/
theorem xors_checks_of_ok {kslen : BitVec 7} {w : Bool} {data : List Byte} {s t : State}
    (h : exec (.xors kslen w data) s = .next t) (hc : t.engine.lastCode = 0x00) :
    1 ≤ kslen.toNat ∧ kslen.toNat ≤ 64 ∧ (w = true ∨ data.length ≤ kslen.toNat)
      ∧ ∃ k, s.engine.ks = some k := by
  have hraise : ∀ c, c ≠ .ok → exec (.xors kslen w data) s ≠ .next (s.raise Opcode.xors.toByte c) := by
    intro c hne he
    cases he.symm.trans h
    exact hne (Code.toByte_eq_zero_iff.mp hc)
  have h64 : kslen.toNat ≤ 64 := by
    by_contra hover
    exact hraise .fieldOutOfRange nofun (exec_xors_of_kslen_over (by omega) w data s)
  have h1 : 1 ≤ kslen.toNat := by
    refine one_le_toNat_iff.mpr ?_
    rintro rfl
    exact hraise .invalidKeystreamLength nofun (exec_xors_kslen_zero w data s)
  have hks : s.engine.ks ≠ none := fun hn => hraise .operandNotWritten nofun (exec_xors_of_none h1 h64 hn)
  refine ⟨h1, h64, ?_, Option.ne_none_iff_exists'.mp hks⟩
  by_contra hw
  obtain ⟨hwf, hd⟩ := not_or.mp hw
  obtain rfl := Bool.eq_false_of_not_eq_true hwf
  exact hraise .dataExceedsKeystream nofun (exec_xors_of_excess_data h1 h64 hks (by omega))

/-- Settles O41: past the checks, the exclusive OR with the keystream. -/
theorem xorsCompletes : Obligations.XorsCompletes :=
  fun _ kslen _ data k hk h1 h64 hw => ⟨xorBytes data (keystream k kslen), xorBytes_length _ _,
    fun _ hi => getElem?_xorBytes_keystream h1 h64 hi, completes_of_complete (exec_xors_of_some h1 h64 hk hw)⟩

/-- Settles O59: the second XORS passes the checks that the first one passed, and cancels it. -/
theorem xorsTwiceGivesTheData : Obligations.XorsTwiceGivesTheData := by
  intro s t kslen w data r h hc hr
  obtain ⟨h1, h64, hw, k, hk⟩ := xors_checks_of_ok h hc
  have hlen := xorBytes_length data (keystream k kslen)
  have ht : s.complete s.engine .xors (pack (xorBytes data (keystream k kslen))) = t :=
    Host.Outcome.next.inj ((exec_xors_of_some h1 h64 hk hw).symm.trans h)
  have hkt : t.engine.ks = some k := ht ▸ hk
  have hrt : pack (xorBytes data (keystream k kslen)) = r := by
    subst ht
    exact congrArg Response.result (List.singleton_inj.mp (List.append_cancel_left hr))
  have htwice := exec_xors_of_some h1 h64 hkt (hlen.symm ▸ hw)
  rw [xorBytes_xorBytes] at htwice
  rw [← hrt, ← hlen, unpack_pack]
  exact completes_of_complete htwice

/-- XORS with KSLEN over 64 ends with 0x85 whatever the payload: at the right length the command raises the code, at
any other the decoder does (R86, R200). -/
theorem onPacket_xors_kslen_over (s : State) {h : Word} (ho : opcField h = Opcode.xors.toByte)
    (hk : 64 < (kslenField h).toNat) (p : List Word) :
    onPacket s h p = .next (s.raise Opcode.xors.toByte .fieldOutOfRange) := by
  have hr := reserved_fx h
  by_cases hl : p.length = plenOf .xors h
  · rw [onPacket_of_accepted s ho hr hl, readOperands, exec_xors_of_kslen_over hk]
  · rw [onPacket_of_wrong_length s ho hr hl, badPayloadCode, if_neg nofun, if_pos ⟨rfl, hk⟩]

theorem onPacket_xors_malformed (s : State) {h : Word} {p : List Word} (ho : opcField h = Opcode.xors.toByte)
    (hk : (kslenField h).toNat ≤ 64) (hl : p.length ≠ plenOf .xors h) :
    onPacket s h p = .next (s.raise Opcode.xors.toByte .malformedPacket) := by
  rw [onPacket_of_wrong_length s ho (reserved_fx h) hl, badPayloadCode, if_neg nofun,
    if_neg fun hover => hover.2.not_ge hk]

/-- The words of a packed string, with its padding bytes written out (R54). -/
theorem pack_eq_map_leWord_padded {b : List Byte} {n : Nat} (hn : b.length = n) :
    pack b = (List.range ((n + 3) / 4)).map (leWord (b ++ [0, 0, 0])) := by
  rw [pack_eq_map_leWord, hn]
  exact List.map_congr_left fun j _ => (leWord_append_zeros b 3 j).symm

/-- Settles O33: the checks in their order, else the command on the unpacked data. -/
theorem xorsPackets : Obligations.XorsPackets := by
  intro s dlen w kslen p o
  have ho : opcField (dlen ++ BitVec.ofBool w ++ kslen ++ 0x33#8) = Opcode.xors.toByte := opcField_append _ _
  have hr := reserved_fx (dlen ++ BitVec.ofBool w ++ kslen ++ 0x33#8)
  have hk := kslenField_append dlen w kslen 0x33#8
  have hw := wField_append dlen w kslen 0x33#8
  have hd := dlenField_append dlen w kslen 0x33#8
  have hp : plenOf .xors (dlen ++ BitVec.ofBool w ++ kslen ++ 0x33#8) = (dlen.toNat + 3) / 4 := by
    rw [plenOf, hd, wordCount]
  by_cases hover : 64 < kslen.toNat
  · rw [if_pos hover]
    exact endsInFault_of_raise (onPacket_xors_kslen_over s ho (hk.symm ▸ hover) p) rfl
  rw [if_neg hover]
  by_cases hl : p.length = (dlen.toNat + 3) / 4
  case neg =>
    rw [if_pos hl]
    exact endsInFault_of_raise (onPacket_xors_malformed s ho (hk.symm ▸ not_lt.mp hover) (hp.symm ▸ hl)) rfl
  have ha := onPacket_of_accepted s ho hr (hl.trans hp.symm)
  rw [readOperands, hk, hw, hd] at ha
  rw [if_neg (not_not.mpr hl)]
  by_cases h0 : kslen = 0
  · subst h0
    exact endsInError_of_raise (ha.trans (exec_xors_kslen_zero _ _ s)) rfl
  rw [if_neg h0]
  have h64 : kslen.toNat ≤ 64 := not_lt.mp hover
  have h1 : 1 ≤ kslen.toNat := one_le_toNat_iff.mpr h0
  have hlen : (unpack p dlen.toNat).length = dlen.toNat := unpack_length_of_wordCount hl
  cases hks : s.engine.ks with
  | none => exact endsInFault_of_raise (ha.trans (exec_xors_of_none h1 h64 hks)) rfl
  | some k =>
    dsimp only
    split_ifs with hx
    · obtain ⟨rfl, hlt⟩ := hx
      exact endsInError_of_raise (ha.trans (exec_xors_of_excess_data h1 h64 (by simp [hks]) (hlen.symm ▸ hlt))) rfl
    · have hfit := (not_and_or.mp hx).imp Bool.eq_true_of_not_eq_false not_lt.mp
      rw [← hlen] at hfit
      have hrlen := (xorBytes_length (unpack p dlen.toNat) (keystream k kslen)).trans hlen
      refine ⟨_, hrlen, fun i hi => ?_, ?_⟩
      · rw [getElem?_xorBytes_keystream h1 h64 (hlen.symm ▸ hi), unpack_getD p hi, byteOf]
      · rw [← pack_eq_map_leWord_padded hrlen]
        exact completes_of_complete (ha.trans (exec_xors_of_some h1 h64 hks hfit))

end Sys2Proof
end

section
/-! PROOFS of the family 45_control.md: RDSTATUS on packets (R220). -/

namespace Sys2Proof

open Machine

/-- Settles O34: the packet checks, else the command, whose answer is taken from the engine before its update. -/
theorem rdstatusPackets : Obligations.RdstatusPackets := by
  intro s f p
  exact packet_checks (op := .rdstatus) s (opcField_append f _) nofun nofun (reserved_f0 f _)
    List.length_eq_zero_iff.not.symm fun _ ha => completes_of_complete (ha.trans (exec_rdstatus s))

end Sys2Proof
end

section
/-! PROOFS of the family 60_exceptions: a register with no value, the code that ends a packet, and the precision of
errors (60_exceptions.md R232 to R240). -/

namespace Sys2Proof

open Machine

/-! ## A register with no value (R240) -/

/-- Settles O42, command by command. -/
theorem unwrittenOperandIsRefused : Obligations.UnwrittenOperandIsRefused := by
  intro s
  refine ⟨fun hs t => ⟨?rdstate, ?block⟩, fun ho => ⟨?rdout, ?serial⟩,
    fun hk => ⟨?rdks, fun kslen w data h1 h64 => ?xors⟩⟩
  case rdstate => exact endsInFault_register_read (op := .rdstate) hs
  case block => exact endsInFault_of_raise (exec_block_of_none hs t) rfl
  case rdout => exact endsInFault_register_read (op := .rdout) ho
  case serial => exact endsInFault_of_raise (exec_serial_of_none ho) rfl
  case rdks => exact endsInFault_register_read (op := .rdks) hk
  case xors => exact endsInFault_of_raise (exec_xors_of_none h1 h64 hk) rfl

/-! ## Errors are precise (R234) -/

/-- Settles O45: a packet that completes records 0x00, and any other raises its code over the engine it began
with. -/
theorem errorsArePrecise : Obligations.ErrorsArePrecise := by
  intro s t h p ht hc
  rw [onPacket_eq_runPacket] at ht
  obtain ⟨i, e, r, -, -, rfl⟩ | ⟨c, hne, rfl⟩ := runPacket_next_cases ht
  · exact absurd rfl hc
  · exact ⟨rfl, rfl, rfl, rfl, _, by rw [State.raise_responses, respond_error _ hne]⟩

/-! ## How a packet ends, given its code (R232) -/

/-- The outcome is a next state in which the command of s has ended with the code: the input is taken, one response
carries the code and the OPC, and STATUS follows the code. Which data registers were written is left open. -/
def EndsWithCode (o : Host.Outcome State Fault Refusal) (s : State) (opc code : Byte) : Prop :=
  ∃ t r, o = .next t
    ∧ t.pending = s.pending
    ∧ t.responses = s.responses ++ [{ status := BitVec.ofNat 16 r.length ++ opc ++ code, result := r }]
    ∧ t.engine.lastCode = code
    ∧ t.engine.lastOpc = opc
    ∧ t.engine.stickyErr = (s.engine.stickyErr || (decide (0x01 ≤ code) && decide (code ≤ 0x04)))
    ∧ t.engine.stickyFault = (s.engine.stickyFault || decide (0x80 ≤ code))

section
variable {o : Host.Outcome State Fault Refusal} {s : State}

theorem endsWithCode_of_raise {opc code : Byte} {c : Code} (h : o = .next (s.raise opc c)) (hc : c ≠ .ok)
    (hcode : c.toByte = code) : EndsWithCode o s opc code := by
  subst hcode
  exact ⟨_, [], h, rfl, by rw [State.raise_responses, respond_error _ hc]; rfl, rfl, rfl, rfl, rfl⟩

/-- A command that completes ends with 0x00, whatever data register it wrote. -/
theorem endsWithCode_of_complete {e : Engine} {op : Opcode} {r : List Word} (h : o = .next (s.complete e op r))
    (he : e.stickyErr = s.engine.stickyErr) (hf : e.stickyFault = s.engine.stickyFault) :
    EndsWithCode o s op.toByte 0x00 :=
  ⟨_, r, h, rfl, rfl, rfl, rfl, congrArg (· || false) he, congrArg (· || false) hf⟩

theorem endsWithCode_withOperand {α : Type} {reg : Option α} [Decidable (reg = none)] {op : Opcode}
    {body : α → Host.Outcome State Fault Refusal} (hb : ∀ v, EndsWithCode (body v) s op.toByte 0x00) :
    EndsWithCode (withOperand reg op s body) s op.toByte ((if reg = none then some 0x83 else none).getD 0x00) := by
  cases reg with
  | none => rw [if_pos rfl]; exact endsWithCode_of_raise rfl nofun rfl
  | some v => rw [if_neg nofun]; exact hb v

end

/-! ## The packet checks and the command's own checks, by command (R86, R236) -/

/-- The list of OPC values that `packetCheck` writes out is the opcode map (R87). -/
theorem packetCheck_of_illegal_opcode {h : Word} (ho : Opcode.ofByte (opcField h) = none) (p : List Word) :
    packetCheck { header := h, payload := p } = some 0x80 := by
  refine if_pos fun hm => ?_
  obtain ⟨op, -, hop⟩ := List.mem_map.mp (show opcField h ∈ Opcode.all.map Opcode.toByte from hm)
  rw [← hop, Opcode.ofByte_toByte] at ho
  cases ho

/-- `commandCheck` read by command: the checks of R144, R200 and R240. -/
def commandCheckOf (op : Opcode) (e : Engine) (h : Word) : Option Byte :=
  match op with
  | .build => if klenField h ≠ 32 then some 0x01 else if nlenField h ≠ 12 then some 0x02 else none
  | .xors =>
    if kslenField h = 0 then some 0x03
    else if e.ks = none then some 0x83
    else if wField h = false ∧ (kslenField h).toNat < (dlenField h).toNat then some 0x04
    else none
  | .rdstate | .block => if e.state = none then some 0x83 else none
  | .rdout | .serial => if e.out = none then some 0x83 else none
  | .rdks => if e.ks = none then some 0x83 else none
  | .add32 | .xor32 | .rotl32 | .qr | .ldstate | .ldks | .rdstatus => none

section
variable {op : Opcode} {h : Word} (ho : opcField h = op.toByte) (p : List Word)
include ho

theorem packetCheck_of_opcField :
    packetCheck { header := h, payload := p } =
      if h &&& op.format.rsvdMask ≠ 0 then some 0x81
      else if op = .rotl32 ∧ nField h = 0 then some 0x82
      else if op = .xors ∧ 64 < (kslenField h).toNat then some 0x85
      else if p.length ≠ plenOf op h then some 0x84
      else none := by
  have hl : plen h ≠ some p.length ↔ p.length ≠ plenOf op h := by
    simp [plen, ho, eq_comm]
  simp only [packetCheck, ho, hl]
  cases op <;> simp [Opcode.toByte, Opcode.format, Format.rsvdMask]

theorem commandCheck_of_opcField (e : Engine) :
    commandCheck e { header := h, payload := p } = commandCheckOf op e h := by
  simp only [commandCheck, ho]
  cases op <;> simp [Opcode.toByte, commandCheckOf]

end

/-! ## An accepted packet (R236 item 5) -/

section
variable (s : State) {h : Word} {p : List Word}

/-- BUILD on a packet: the lengths it checks are those of its header fields. -/
theorem endsWithCode_build (hl : p.length = plenOf .build h) :
    EndsWithCode (exec (readOperands .build h p) s) s Opcode.build.toByte
      ((commandCheckOf .build s.engine h).getD 0x00) := by
  have hkey := unpack_key_length hl
  have hnonce := unpack_nonce_length hl
  rw [commandCheckOf]
  by_cases hk : klenField h = 32
  case neg =>
    have hk32 := hkey.trans_ne (mt (BitVec.eq_of_toNat_eq (y := 32#8)) hk)
    rw [if_pos hk]
    exact endsWithCode_of_raise (exec_build_of_error (buildState_of_key_length hk32 _ _) s) nofun rfl
  have hk32 := hkey.trans (congrArg BitVec.toNat hk)
  rw [if_neg (not_not.mpr hk)]
  split_ifs with hn
  · have hn12 := hnonce.trans_ne (mt (BitVec.eq_of_toNat_eq (y := 12#8)) hn)
    exact endsWithCode_of_raise (exec_build_of_error (buildState_of_nonce_length hk32 hn12 _) s) nofun rfl
  · have hn12 := hnonce.trans (congrArg BitVec.toNat (not_not.mp hn))
    obtain ⟨b, hb, -⟩ := buildState_ok hk32 hn12 (p.getD 0 0)
    exact endsWithCode_of_complete (exec_build_of_ok hb s) rfl rfl

/-- XORS on a packet whose KSLEN is not over 64: an empty keystream, then KS with no value, then the data length. -/
theorem endsWithCode_xors (hl : p.length = plenOf .xors h) (h64 : (kslenField h).toNat ≤ 64) :
    EndsWithCode (exec (readOperands .xors h p) s) s Opcode.xors.toByte
      ((commandCheckOf .xors s.engine h).getD 0x00) := by
  have hd := unpack_data_length hl
  rw [readOperands, commandCheckOf]
  by_cases h0 : kslenField h = 0
  case pos =>
    rw [if_pos h0, h0]
    exact endsWithCode_of_raise (exec_xors_kslen_zero _ _ s) nofun rfl
  have h1 := one_le_toNat_iff.mpr h0
  rw [if_neg h0]
  split_ifs with hk hx
  · exact endsWithCode_of_raise (exec_xors_of_none h1 h64 hk) nofun rfl
  · obtain ⟨hw, hlt⟩ := hx
    rw [hw]
    exact endsWithCode_of_raise (exec_xors_of_excess_data h1 h64 hk (hd.symm ▸ hlt)) nofun rfl
  · obtain ⟨k, hk⟩ := Option.ne_none_iff_exists'.mp hk
    have hfit := (not_and_or.mp hx).imp Bool.eq_true_of_not_eq_false not_lt.mp
    exact endsWithCode_of_complete (exec_xors_of_some h1 h64 hk (hd.symm ▸ hfit)) rfl rfl

/-- A packet past the checks of R86 ends with the first of its command's own checks that fails, or with 0x00. -/
theorem endsWithCode_accepted {op : Opcode} (ho : opcField h = op.toByte) (hl : p.length = plenOf op h)
    (hn : ¬(op = .rotl32 ∧ nField h = 0)) (hk : ¬(op = .xors ∧ 64 < (kslenField h).toNat)) :
    EndsWithCode (exec (readOperands op h p) s) s op.toByte
      ((commandCheck s.engine { header := h, payload := p }).getD 0x00) := by
  rw [commandCheck_of_opcField ho]
  cases op with
  | add32 => exact endsWithCode_of_complete rfl rfl rfl
  | xor32 => exact endsWithCode_of_complete rfl rfl rfl
  | rotl32 => exact endsWithCode_of_complete (exec_rotl32 (fun h0 => hn ⟨rfl, h0⟩) _ s) rfl rfl
  | qr => exact endsWithCode_of_complete rfl rfl rfl
  | build => exact endsWithCode_build s hl
  | ldstate => exact endsWithCode_of_complete rfl rfl rfl
  | rdstate => exact endsWithCode_withOperand fun _ : Words16 => endsWithCode_of_complete rfl rfl rfl
  | block =>
    refine endsWithCode_withOperand fun _ : Words16 => ?_
    split_ifs <;> exact endsWithCode_of_complete rfl rfl rfl
  | rdout => exact endsWithCode_withOperand fun _ : Words16 => endsWithCode_of_complete rfl rfl rfl
  | serial => exact endsWithCode_withOperand fun _ : Words16 => endsWithCode_of_complete rfl rfl rfl
  | ldks => exact endsWithCode_of_complete rfl rfl rfl
  | rdks => exact endsWithCode_withOperand fun _ : KeyBytes => endsWithCode_of_complete rfl rfl rfl
  | xors => exact endsWithCode_xors s hl (not_lt.mp fun hlt => hk ⟨rfl, hlt⟩)
  | rdstatus => exact endsWithCode_of_complete (exec_rdstatus s) rfl rfl

end

/-! ## Every packet (R86, R236) -/

theorem endsWithCode_illegal_opcode (s : State) {h : Word} (ho : Opcode.ofByte (opcField h) = none) (p : List Word) :
    EndsWithCode (onPacket s h p) s (opcField h) 0x80 := by
  have hd : decode { header := h, payload := p } = .error .illegalOpcode := by rw [decode, ho]
  rw [onPacket_eq_runPacket, runPacket, hd]
  exact endsWithCode_of_raise rfl nofun rfl

/-- The two codes that outrank a wrong length are raised whatever the length is: by the decoder or by the command. -/
theorem endsWithCode_opcode (s : State) {op : Opcode} {h : Word} (ho : opcField h = op.toByte) (p : List Word) :
    EndsWithCode (onPacket s h p) s op.toByte (packetCode s.engine { header := h, payload := p }) := by
  rw [packetCode, packetCheck_of_opcField ho]
  split_ifs with hr hn hk hl
  · exact endsWithCode_of_raise (onPacket_of_reserved s ho hr) nofun rfl
  · obtain ⟨rfl, hn0⟩ := hn
    exact endsWithCode_of_raise (onPacket_rotl32_zero s ho (not_not.mp hr) hn0 p) nofun rfl
  · obtain ⟨rfl, hover⟩ := hk
    exact endsWithCode_of_raise (onPacket_xors_kslen_over s ho hover p) nofun rfl
  · have hbad : badPayloadCode op h = .malformedPacket := (if_neg hn).trans (if_neg hk)
    have hend := onPacket_of_wrong_length s ho (not_not.mp hr) hl
    rw [hbad] at hend
    exact endsWithCode_of_raise hend nofun rfl
  · rw [onPacket_of_accepted s ho (not_not.mp hr) (not_not.mp hl)]
    exact endsWithCode_accepted s ho (not_not.mp hl) hn hk

/-- Settles O44: a packet with an OPC of the map ends as its command's packets do, and any other with 0x80. -/
theorem everyPacketEndsWithItsCode : Obligations.EveryPacketEndsWithItsCode := by
  intro s h p
  cases ho : Opcode.ofByte (opcField h) with
  | none =>
    rw [packetCode, packetCheck_of_illegal_opcode ho]
    exact endsWithCode_illegal_opcode s ho p
  | some op =>
    have hop := (Opcode.toByte_of_ofByte ho).symm
    have hend := endsWithCode_opcode s hop p
    rwa [← hop] at hend

end Sys2Proof
end
